-- ==== Sys2Proof/Word.lean ====
section
/-! DEFINITION. The widths of the int256 CORE (00_scope.md R7): values, limbs, bytes, register numbers,
header words and command packets. -/

namespace Sys2Proof

/-- The value width `XLEN` = 256 bits (00_scope.md R7, 10_state.md R20). -/
abbrev Word := BitVec 256

/-- The limb width `LIMB` = 64 bits (00_scope.md R7, R8). -/
abbrev Limb := BitVec 64

/-- One byte of the host window (20_memory.md R41). -/
abbrev Byte := BitVec 8

/-- A register number, `NREG` = 16 (00_scope.md R7, 30_encoding.md R63). -/
abbrev Reg := Fin 16

/-- The 32-bit header word `hdr` (30_encoding.md R60). -/
abbrev Header := BitVec 32

/-- A 96-bit command packet, written `hdr / imm` as the spec writes it (30_encoding.md R61). -/
structure Packet where
  /-- `P[31:0]` -/
  hdr : Header
  /-- `P[95:32]` -/
  imm : BitVec 64
  deriving DecidableEq, Repr, Inhabited

end Sys2Proof
end

