-- ==== Sys2Proof/Config.lean ====
section
/-! DEFINITION. What a platform fixes and the spec leaves open: the places of the two host address spaces
in a system map (20_memory.md R51, 00_scope.md R7). Both constants have no value a proof can see (DESIGN CHOICE, log 11). -/

namespace Sys2Proof

/-- Parameter `WINDOW_BASE` (20_memory.md R51): where the host window starts in a system map; OPEN. -/
opaque Config.windowBase : Nat

/-- Parameter `CONTROL_BASE` (20_memory.md R51): where the control space starts in a system map; OPEN. -/
opaque Config.controlBase : Nat

end Sys2Proof
end

