-- ==== Sys2Proof/Syntax.lean ====
section
/-! DEFINITION. The 27 commands, one constructor per row of spec/opcode_table.json, in the order of its rows.
Operands stand in the assembler's order (30_encoding.md R69). -/

namespace Sys2Proof

/-- One command of the opcode map (30_encoding.md R65). -/
inductive Instr where
  /-- R110 -/
  | nop
  /-- R100 -/
  | adc64 (rd rs1 rs2 : Reg)
  /-- R101 -/
  | sbb64 (rd rs1 rs2 : Reg)
  /-- R102 -/
  | mulw64 (rd rs1 rs2 : Reg)
  /-- R103 -/
  | madc64 (rd rs1 rs2 rs3 : Reg)
  /-- R111 -/
  | mov (rd rs1 : Reg)
  /-- R112 -/
  | clr (rd : Reg)
  /-- R113 -/
  | one (rd : Reg)
  /-- R114 -/
  | all1 (rd : Reg)
  /-- R115 -/
  | lds64 (rd : Reg) (imm : BitVec 64)
  /-- R116 -/
  | ldu64 (rd : Reg) (imm : BitVec 64)
  /-- R117; only `imm[1:0]` may be nonzero, see `Instr.WellFormed` -/
  | wrflags (imm : BitVec 64)
  /-- R120 -/
  | neg (rd rs1 : Reg)
  /-- R121 -/
  | add (rd rs1 rs2 : Reg)
  /-- R122 -/
  | sub (rd rs1 rs2 : Reg)
  /-- R123 -/
  | addo (rd rs1 rs2 : Reg)
  /-- R124 -/
  | subo (rd rs1 rs2 : Reg)
  /-- R125 -/
  | cmp (rd rs1 rs2 : Reg)
  /-- R130 -/
  | mul (rd rs1 rs2 : Reg)
  /-- R131 -/
  | mulo (rd rs1 rs2 : Reg)
  /-- R132 -/
  | pow (rd rs1 rs2 : Reg)
  /-- R140 -/
  | quo (rd rs1 rs2 : Reg)
  /-- R141 -/
  | rem (rd rs1 rs2 : Reg)
  /-- R142; `rd2` is encoded in the `rs3` field -/
  | udivrem (rd rd2 rs1 rs2 : Reg)
  /-- R150 -/
  | shl (rd rs1 rs2 : Reg)
  /-- R151 -/
  | shr (rd rs1 rs2 : Reg)
  /-- R160 -/
  | sqrt (rd rs1 : Reg)
  deriving DecidableEq, Repr

end Sys2Proof
end

