-- ==== Sys2Proof/WellFormed.lean ====
section
/-! DEFINITION. Which commands have an encoding. Every register number is legal in every used field
(30_encoding.md R63), and the type `Reg` admits no other, so the one check is WRFLAGS' immediate. -/

namespace Sys2Proof

/-- The command has an encoding: WRFLAGS uses `imm[1:0]` only, and `imm[63:2]` must be 0
(30_encoding.md R62 format F, R66; R69 "F: `imm` with `0 ≤ imm ≤ 3`"). -/
def Instr.WellFormed : Instr → Bool
  | .wrflags imm => decide (imm.toNat ≤ 3)
  | .nop | .adc64 .. | .sbb64 .. | .mulw64 .. | .madc64 .. | .mov .. | .clr _ | .one _ | .all1 _
  | .lds64 .. | .ldu64 .. | .neg .. | .add .. | .sub .. | .addo .. | .subo .. | .cmp ..
  | .mul .. | .mulo .. | .pow .. | .quo .. | .rem .. | .udivrem .. | .shl .. | .shr ..
  | .sqrt .. => true

end Sys2Proof
end

