-- ==== Sys2Proof/Decode.lean ====
section
/-! DEFINITION. The decoder of 96-bit packets, total on every packet (30_encoding.md R60 to R68), and after it
the encoder written from the same tables. -/

namespace Sys2Proof

/-! ## Packets as bits and as bus words -/

/-- The packet whose 96 bits are `P`: `P[31:0] = hdr`, `P[95:32] = imm` (R61). -/
def packetOfBits (bits : BitVec 96) : Packet :=
  { hdr := bits.extractLsb' 0 32, imm := bits.extractLsb' 32 64 }

/-- The 96 bits of a packet (R61). -/
def packetToBits (p : Packet) : BitVec 96 := p.imm ++ p.hdr

/-- The packet carried over a 32-bit bus as `hdr`, `imm[31:0]`, `imm[63:32]`, in that order; nothing is taken
unless all three words are present (R61, D34). -/
def packetOfBusWords : List (BitVec 32) → Option Packet
  | [hdr, immLow, immHigh] => some { hdr := hdr, imm := immHigh ++ immLow }
  | _ => none

/-! ## Header fields (R60) -/

/-- `hdr[7:0]` -/
def hdrOpc (h : Header) : BitVec 8 := h.extractLsb' 0 8

/-- The 4-bit register field of the header that starts at bit `lo`; the field holding `i` names `x[i]` (R63). -/
def hdrReg (h : Header) (lo : Nat) : Reg := ⟨(h.extractLsb' lo 4).toNat, (h.extractLsb' lo 4).isLt⟩

/-- `hdr[11:8]` -/
def hdrRd (h : Header) : Reg := hdrReg h 8

/-- `hdr[15:12]` -/
def hdrRs1 (h : Header) : Reg := hdrReg h 12

/-- `hdr[19:16]` -/
def hdrRs2 (h : Header) : Reg := hdrReg h 16

/-- `hdr[23:20]`, the third source or UDIVREM's `rd2` -/
def hdrRs3 (h : Header) : Reg := hdrReg h 20

/-- `hdr[31:24]`, reserved -/
def hdrResv (h : Header) : BitVec 8 := h.extractLsb' 24 8

/-! ## Formats (R62) -/

/-- The seven formats of R62. -/
inductive Format where
  | n | r1 | r2 | r3 | r4 | i | f
  deriving DecidableEq, Repr

/-- The "fields used" column of R62's table. -/
structure FieldUse where
  rd : Bool
  rs1 : Bool
  rs2 : Bool
  rs3 : Bool
  /-- how many low bits of `imm` the format uses -/
  immBits : Nat
  deriving DecidableEq, Repr

/-- R62: which fields a format uses; every other field must be 0. -/
def Format.uses : Format → FieldUse
  | .n  => { rd := false, rs1 := false, rs2 := false, rs3 := false, immBits := 0 }
  | .r1 => { rd := true,  rs1 := false, rs2 := false, rs3 := false, immBits := 0 }
  | .r2 => { rd := true,  rs1 := true,  rs2 := false, rs3 := false, immBits := 0 }
  | .r3 => { rd := true,  rs1 := true,  rs2 := true,  rs3 := false, immBits := 0 }
  | .r4 => { rd := true,  rs1 := true,  rs2 := true,  rs3 := true,  immBits := 0 }
  | .i  => { rd := true,  rs1 := false, rs2 := false, rs3 := false, immBits := 64 }
  | .f  => { rd := false, rs1 := false, rs2 := false, rs3 := false, immBits := 2 }

/-- R62: the "header mask" column: a 1 in every header bit fixed by the opcode or required to be 0. -/
def Format.headerMask : Format → Header
  | .n  => 0xFFFFFFFF
  | .r1 => 0xFFFFF0FF
  | .r2 => 0xFFFF00FF
  | .r3 => 0xFFF000FF
  | .r4 => 0xFF0000FF
  | .i  => 0xFFFFF0FF
  | .f  => 0xFFFFFFFF

/-- The bits of `imm` a format requires to be 0 (R62, R64). -/
def Format.immMask : Format → BitVec 64
  | .n | .r1 | .r2 | .r3 | .r4 => 0xFFFFFFFFFFFFFFFF
  | .i => 0
  | .f => 0xFFFFFFFFFFFFFFFC

/-- The format of each command (R65). -/
def Instr.format : Instr → Format
  | .nop => .n
  | .clr _ | .one _ | .all1 _ => .r1
  | .mov .. | .neg .. | .sqrt .. => .r2
  | .adc64 .. | .sbb64 .. | .mulw64 .. | .add .. | .sub .. | .addo .. | .subo .. | .cmp .. | .mul ..
  | .mulo .. | .pow .. | .quo .. | .rem .. | .shl .. | .shr .. => .r3
  | .madc64 .. | .udivrem .. => .r4
  | .lds64 .. | .ldu64 .. => .i
  | .wrflags _ => .f

/-- The opcode of each command (R65). -/
def Instr.opcode : Instr → Nat
  | .nop => 0x00
  | .adc64 .. => 0x01
  | .sbb64 .. => 0x02
  | .mulw64 .. => 0x03
  | .madc64 .. => 0x04
  | .mov .. => 0x10
  | .clr _ => 0x11
  | .one _ => 0x12
  | .all1 _ => 0x13
  | .lds64 .. => 0x14
  | .ldu64 .. => 0x15
  | .wrflags _ => 0x16
  | .neg .. => 0x20
  | .add .. => 0x21
  | .sub .. => 0x22
  | .addo .. => 0x23
  | .subo .. => 0x24
  | .cmp .. => 0x25
  | .mul .. => 0x30
  | .mulo .. => 0x31
  | .pow .. => 0x32
  | .quo .. => 0x40
  | .rem .. => 0x41
  | .udivrem .. => 0x42
  | .shl .. => 0x50
  | .shr .. => 0x51
  | .sqrt .. => 0x60

/-! ## The decoder (R66, R68) -/

/-- Why a packet is illegal: the conditions of R66, in its order. -/
inductive Illegal where
  /-- `opc` is not in the table of R65 -/
  | undefinedOpcode
  /-- `hdr[31:24] ≠ 0` -/
  | reservedHeader
  /-- a register field its format does not use is nonzero -/
  | unusedRegister
  /-- a bit of `imm` its format does not use is nonzero -/
  | unusedImmediate
  deriving DecidableEq, Repr

/-- What a decoder yields on a packet (R68): one command with its field values, or "illegal", by name. -/
inductive Decoded where
  | command (i : Instr)
  | illegal (why : Illegal)
  deriving DecidableEq, Repr

/-- The command an opcode selects, with the field values given (R65); none for an undefined opcode. -/
def commandOf (opc : Nat) (rd rs1 rs2 rs3 : Reg) (imm : BitVec 64) : Option Instr :=
  match opc with
  | 0x00 => some .nop
  | 0x01 => some (.adc64 rd rs1 rs2)
  | 0x02 => some (.sbb64 rd rs1 rs2)
  | 0x03 => some (.mulw64 rd rs1 rs2)
  | 0x04 => some (.madc64 rd rs1 rs2 rs3)
  | 0x10 => some (.mov rd rs1)
  | 0x11 => some (.clr rd)
  | 0x12 => some (.one rd)
  | 0x13 => some (.all1 rd)
  | 0x14 => some (.lds64 rd imm)
  | 0x15 => some (.ldu64 rd imm)
  | 0x16 => some (.wrflags imm)
  | 0x20 => some (.neg rd rs1)
  | 0x21 => some (.add rd rs1 rs2)
  | 0x22 => some (.sub rd rs1 rs2)
  | 0x23 => some (.addo rd rs1 rs2)
  | 0x24 => some (.subo rd rs1 rs2)
  | 0x25 => some (.cmp rd rs1 rs2)
  | 0x30 => some (.mul rd rs1 rs2)
  | 0x31 => some (.mulo rd rs1 rs2)
  | 0x32 => some (.pow rd rs1 rs2)
  | 0x40 => some (.quo rd rs1 rs2)
  | 0x41 => some (.rem rd rs1 rs2)
  | 0x42 => some (.udivrem rd rs3 rs1 rs2)
  | 0x50 => some (.shl rd rs1 rs2)
  | 0x51 => some (.shr rd rs1 rs2)
  | 0x60 => some (.sqrt rd rs1)
  | _ => none

/-- The command the opcode of a packet selects, with the field values of the packet. -/
def selectCommand (p : Packet) : Option Instr :=
  commandOf (hdrOpc p.hdr).toNat (hdrRd p.hdr) (hdrRs1 p.hdr) (hdrRs2 p.hdr) (hdrRs3 p.hdr) p.imm

/-- Every register field the format does not use is 0 (R62, R66). -/
def unusedRegsZero (fmt : Format) (h : Header) : Bool :=
  (fmt.uses.rd || hdrRd h == 0) && (fmt.uses.rs1 || hdrRs1 h == 0) &&
  (fmt.uses.rs2 || hdrRs2 h == 0) && (fmt.uses.rs3 || hdrRs3 h == 0)

/-- Every bit of `imm` the format does not use is 0 (R62, R66). -/
def unusedImmZero (fmt : Format) (imm : BitVec 64) : Bool :=
  decide (imm.toNat / 2 ^ fmt.uses.immBits = 0)

/-- The decoder: total on any packet (R68), illegal exactly under R66. -/
def decode (p : Packet) : Decoded :=
  match selectCommand p with
  | none => .illegal .undefinedOpcode
  | some i =>
    if hdrResv p.hdr ≠ 0 then .illegal .reservedHeader
    else if unusedRegsZero i.format p.hdr = false then .illegal .unusedRegister
    else if unusedImmZero i.format p.imm = false then .illegal .unusedImmediate
    else .command i

/-! ## The encoder -/

/-- `hdr = opc + rd·2^8 + rs1·2^12 + rs2·2^16 + rs3·2^20` (R60). -/
def headerOf (opc : Nat) (rd rs1 rs2 rs3 : Reg) : Header :=
  BitVec.ofNat 32 (opc + rd.val * 2 ^ 8 + rs1.val * 2 ^ 12 + rs2.val * 2 ^ 16 + rs3.val * 2 ^ 20)

/-- The register fields of a header. -/
structure RegFields where
  rd : Reg
  rs1 : Reg
  rs2 : Reg
  rs3 : Reg
  deriving DecidableEq, Repr

/-- The register fields of a command's header, a field its format does not use 0 (R62); UDIVREM's `rd2` stands in the
`rs3` field (R69). -/
def Instr.regFields : Instr → RegFields
  | .nop | .wrflags _ => ⟨0, 0, 0, 0⟩
  | .clr rd | .one rd | .all1 rd | .lds64 rd _ | .ldu64 rd _ => ⟨rd, 0, 0, 0⟩
  | .mov rd rs1 | .neg rd rs1 | .sqrt rd rs1 => ⟨rd, rs1, 0, 0⟩
  | .adc64 rd rs1 rs2 | .sbb64 rd rs1 rs2 | .mulw64 rd rs1 rs2 | .add rd rs1 rs2 | .sub rd rs1 rs2
  | .addo rd rs1 rs2 | .subo rd rs1 rs2 | .cmp rd rs1 rs2 | .mul rd rs1 rs2 | .mulo rd rs1 rs2
  | .pow rd rs1 rs2 | .quo rd rs1 rs2 | .rem rd rs1 rs2 | .shl rd rs1 rs2 | .shr rd rs1 rs2 => ⟨rd, rs1, rs2, 0⟩
  | .madc64 rd rs1 rs2 rs3 => ⟨rd, rs1, rs2, rs3⟩
  | .udivrem rd rd2 rs1 rs2 => ⟨rd, rs1, rs2, rd2⟩

/-- The header word of a command: its opcode and its register fields (R60, R62, R65). -/
def Instr.header (i : Instr) : Header :=
  headerOf i.opcode i.regFields.rd i.regFields.rs1 i.regFields.rs2 i.regFields.rs3

/-- The immediate of a command: three commands use it, for every other it is 0 (R64). -/
def Instr.immediate : Instr → BitVec 64
  | .lds64 _ imm | .ldu64 _ imm | .wrflags imm => imm
  | .nop | .adc64 .. | .sbb64 .. | .mulw64 .. | .madc64 .. | .mov .. | .clr _ | .one _ | .all1 _
  | .neg .. | .add .. | .sub .. | .addo .. | .subo .. | .cmp .. | .mul .. | .mulo .. | .pow ..
  | .quo .. | .rem .. | .udivrem .. | .shl .. | .shr .. | .sqrt .. => 0

/-- The packet of a command (R61). -/
def encode (i : Instr) : Packet := { hdr := i.header, imm := i.immediate }

/-! ## The host's entry to the decoder -/

/-- The packet whose low `nbits` bits are those of `w`, every bit above them 0; bit 0 is bit 0 of `hdr`
(R61; DEDUCED, log 14). -/
def packetOfTableWord (nbits w : Nat) : Packet := packetOfBits (BitVec.ofNat 96 (w % 2 ^ nbits))

/-- What the decoder reads from a packet whose bits are `w`, numbered as spec/opcode_table.json numbers them. -/
def decodeTableWord (nbits w : Nat) : Option Instr :=
  match decode (packetOfTableWord nbits w) with
  | .command i => some i
  | .illegal _ => none

end Sys2Proof
end

