-- ==== Sys2Proof/Machine/State.lean ====
section
/-! DEFINITION. The state of the int256 CORE as plain data (10_state.md section 1), the two agents' interface
(60_exceptions.md R204, R220, R223), the reasons a step can stop, and the state after reset (10_state.md R35). -/

namespace Sys2Proof.Machine

/-- The values `STATUS.FAULT` takes (10_state.md R31, 60_exceptions.md R200); 4 to 15 never occur. -/
inductive FaultCode where
  /-- 0 -/
  | none
  /-- 1, raised by QUO, REM, UDIVREM -/
  | zeroDivision
  /-- 2, raised by SQRT -/
  | negativeArgument
  /-- 3, raised by an illegal packet -/
  | illegalCommand
  deriving DecidableEq, Repr

/-- The answer to a host access (20_memory.md R45 to R49). -/
inductive Response where
  | ok | errSize | errRange | errAlign | errBusy | errRo
  deriving DecidableEq, Repr

/-- What the host gets back at a step (60_exceptions.md R204, R223). -/
inductive Reply where
  /-- the `done` event: the accepted command completed or faulted at this step (R204) -/
  | done
  /-- a host-window read: the answer and the bytes, lowest address first (20_memory.md R42, R46) -/
  | windowRead (r : Response) (data : List Byte)
  /-- a host-window write (20_memory.md R43) -/
  | windowWrite (r : Response)
  /-- a control-space read (20_memory.md R48) -/
  | controlRead (r : Response) (value : BitVec 32)
  /-- a control-space write (20_memory.md R49) -/
  | controlWrite (r : Response)
  /-- reset: the host sees this STATUS (60_exceptions.md R223) -/
  | afterReset (status : BitVec 32)
  deriving DecidableEq, Repr

/-- One interaction of the host with the block (60_exceptions.md R223). Addresses are the offsets of
20_memory.md R51. -/
inductive HostAction where
  /-- issue a command: offer a packet at the command port (R220) -/
  | offer (p : Packet)
  /-- the same over a 32-bit bus: the words present (30_encoding.md R61) -/
  | offerWords (words : List (BitVec 32))
  | windowRead (addr size : Nat)
  /-- the access size is the number of bytes -/
  | windowWrite (addr : Nat) (data : List Byte)
  | controlRead (addr : Nat)
  | controlWrite (addr : Nat) (value : BitVec 32)
  /-- assert `rst`; `keepOffer` says whether the host goes on offering a packet that waits at the port
  (R230; DESIGN CHOICE, log 4) -/
  | reset (keepOffer : Bool)
  deriving DecidableEq, Repr

/-- The two agents (00_scope.md R15). -/
inductive Agent where
  | host | core
  deriving DecidableEq, Repr

/-- Everything the spec gives the machine (10_state.md section 1), and the two agents' interface. -/
structure State where
  /-- `x[0]`..`x[15]` (R20) -/
  regs : Vector Word 16
  /-- flag C (R26) -/
  c : Bool
  /-- flag V (R27) -/
  v : Bool
  /-- the accepted command packet; it exists exactly while `STATUS.BUSY = 1` (R28, R32) -/
  inFlight : Option Packet
  /-- `STATUS.FAULT` (R28, R31) -/
  fault : FaultCode
  /-- `FCMD` (R29) -/
  fcmd : BitVec 32
  /-- the packet the host holds at the command port and the port has not accepted (R220; DESIGN CHOICE, log 3) -/
  offered : Option Packet
  /-- what the host got back at the latest step (R204, R223; DESIGN CHOICE, log 5) -/
  reply : Option Reply
  /-- the interactions the host has still to make, oldest first (R223; DESIGN CHOICE, log 1) -/
  script : List HostAction
  /-- which agent moves at the coming steps, the next first (R222; DESIGN CHOICE, log 2) -/
  turns : List Agent
  deriving DecidableEq, Repr

/-- Reasons a step answers `fault`. Both are raised by `step` alone, and no instruction's meaning answers with
one: the spec's faults are next states (`State.takeFault`). -/
inductive Fault where
  /-- Raised by `step` when neither agent can move and FAULT = 0: no command in progress, none offered, nothing
  left for the host to do; the run has ended (60_exceptions.md R224). Safe: the machine does nothing there. -/
  | idle
  /-- Raised by `step` when neither agent can move and FAULT ≠ 0: the core takes no step until reset
  (60_exceptions.md R205, 93_implementation_defined.md I16 'stuck'). Safe: the machine does nothing there. -/
  | halted
  deriving DecidableEq, Repr

/-- Reasons an instruction is refused. -/
inductive Refusal where
  /-- Raised by `exec` for an instruction without a meaning; no arm raises it. Safe. -/
  | notModelled (mnemonic : String)
  deriving DecidableEq, Repr

/-- The machine right after reset (10_state.md R35): every register 0, C = V = 0, BUSY = 0, FAULT = 0, FCMD = 0,
no command in progress. The host's side is empty: nothing offered, nothing answered, nothing left to do
(DESIGN CHOICE, logs 1, 2, 3, 5). -/
def State.reset : State where
  regs := Vector.replicate 16 0
  c := false
  v := false
  inFlight := none
  fault := .none
  fcmd := 0
  offered := none
  reply := none
  script := []
  turns := []

end Sys2Proof.Machine
end

