-- ==== Sys2Proof/Machine/Ops.lean ====
section
/-! DEFINITION. The named operations over registers, flags, the status words, the host window, the control
space, a command's completion, taking a fault, and reset. -/

namespace Sys2Proof.Machine

/-! ## Registers and flags -/

/-- Read `x[r]` (10_state.md R20). -/
def State.reg (s : State) (r : Reg) : Word := s.regs[r]

/-- Write all 256 bits of `x[r]` (10_state.md R22). -/
def State.setReg (s : State) (r : Reg) (w : Word) : State := { s with regs := s.regs.set r w }

/-- Write flag C (10_state.md R26). -/
def State.setC (s : State) (b : Bool) : State := { s with c := b }

/-- Write flag V (10_state.md R27). -/
def State.setV (s : State) (b : Bool) : State := { s with v := b }

/-! ## STATUS and its fields (10_state.md R28) -/

/-- `STATUS.BUSY` (R32). -/
def State.busy (s : State) : Bool := s.inFlight.isSome

/-- `STATUS.HALTED`: 1 exactly when FAULT ≠ 0 (R28). -/
def State.halted (s : State) : Bool := s.fault != .none

/-- The fault codes of 60_exceptions.md R200 as the 4-bit field `STATUS.FAULT`. -/
def faultBits : FaultCode → BitVec 4
  | .none => 0
  | .zeroDivision => 1
  | .negativeArgument => 2
  | .illegalCommand => 3

/-- The 32-bit `STATUS` word: bit 0 C, 1 V, 2 BUSY, 3 HALTED, 7:4 FAULT, 31:8 reserved, read as 0 (R28). -/
def State.statusWord (s : State) : BitVec 32 :=
  0#24 ++ faultBits s.fault ++ BitVec.ofBool s.halted ++ BitVec.ofBool s.busy ++ BitVec.ofBool s.v ++
    BitVec.ofBool s.c

/-- The output level `busy` equals `STATUS.BUSY` (60_exceptions.md R204). -/
def State.busyOutput (s : State) : Bool := s.busy

/-- The output level `fault` equals `STATUS.HALTED` (60_exceptions.md R204). -/
def State.faultOutput (s : State) : Bool := s.halted

/-! ## What the host gets back (60_exceptions.md R223) -/

/-- The host gets an answer. -/
def State.answer (s : State) (r : Reply) : State := { s with reply := some r }

/-! ## The end of a command -/

/-- A command completes: BUSY <- 0 and the `done` event (60_exceptions.md R204, R221). -/
def State.complete (s : State) : State := { s with inFlight := none, reply := some .done }

/-- Taking a fault, the one shared operation (60_exceptions.md R203): FAULT <- code, FCMD <- the header of the
faulting command, BUSY <- 0, the `done` event (R204); no register and no flag is written (R202). There is no
return from a fault but `State.hostReset` (R206). -/
def State.takeFault (s : State) (code : FaultCode) (hdr : Header) : State :=
  { s with fault := code, fcmd := hdr, inFlight := none, reply := some .done }

/-- Asserting `rst` (70_reset_and_hazards.md R230): every piece of the block's state to its reset value of
10_state.md R35, a command in progress abandoned. What the host has still to do and which agent moves next are
the host's and the model's, and stay. A waiting packet is not accepted by reset; whether the host goes on
offering it is the host's choice (DESIGN CHOICE, log 4). -/
def State.hostReset (s : State) (keepOffer : Bool) : State :=
  let r : State :=
    { State.reset with
      offered := if keepOffer then s.offered else none
      script := s.script
      turns := s.turns }
  r.answer (.afterReset r.statusWord)

/-! ## The host window (20_memory.md R41 to R47) -/

/-- Byte `k` of a register value, most significant first: bits 255−8k to 248−8k (R41). -/
def wordByte (w : Word) (k : Nat) : Byte := w.extractLsb' (248 - 8 * k) 8

/-- The register value with byte `k` replaced, every other byte kept (R43). -/
def setWordByte (w : Word) (k : Nat) (b : Byte) : Word :=
  (w &&& ~~~((0xFF : Word) <<< (248 - 8 * k))) ||| (b.setWidth 256 <<< (248 - 8 * k))

/-- The register that window address `a` lies in: `a / 32` (R41). -/
def windowReg (a : Nat) : Reg := Fin.ofNat 16 (a / 32)

/-- `byte(a)`: byte `a mod 32` of register `a / 32` (R41). -/
def State.windowByte (s : State) (a : Nat) : Byte := wordByte (s.reg (windowReg a)) (a % 32)

/-- `byte(a) <- b` (R43). -/
def State.setWindowByte (s : State) (a : Nat) (b : Byte) : State :=
  s.setReg (windowReg a) (setWordByte (s.reg (windowReg a)) (a % 32) b)

/-- `byte(a) ++ byte(a+1) ++ …`, `n` bytes, lowest address first (R42). -/
def State.windowBytes (s : State) (a : Nat) : Nat → List Byte
  | 0 => []
  | n + 1 => s.windowByte a :: s.windowBytes (a + 1) n

/-- `byte(a+i) <- data[i]` for every byte of the data, lowest address first (R43). -/
def State.setWindowBytes (s : State) (a : Nat) : List Byte → State
  | [] => s
  | b :: rest => (s.setWindowByte a b).setWindowBytes (a + 1) rest

/-- The answer to a host-window access: the first refusal that applies, in the order ERR_SIZE, ERR_RANGE,
ERR_ALIGN, ERR_BUSY, else OK (R45, R46, R47). -/
def windowResponse (addr size : Nat) (busy : Bool) : Response :=
  if size ≠ 1 ∧ size ≠ 8 ∧ size ≠ 32 then .errSize
  else if 512 ≤ addr then .errRange
  else if addr % size ≠ 0 then .errAlign
  else if busy then .errBusy
  else .ok

/-- A host-window read: no effect on the block; a refused read returns zeros of its size (R42, R46, R50). -/
def State.hostWindowRead (s : State) (addr size : Nat) : State :=
  let r := windowResponse addr size s.busy
  s.answer (.windowRead r (if r = .ok then s.windowBytes addr size else List.replicate size 0))

/-- A host-window write of `data.length` bytes; a refused write changes nothing (R43, R46). -/
def State.hostWindowWrite (s : State) (addr : Nat) (data : List Byte) : State :=
  let r := windowResponse addr data.length s.busy
  (if r = .ok then s.setWindowBytes addr data else s).answer (.windowWrite r)

/-! ## The control space (20_memory.md R48, R49) -/

/-- A control-space read at word address `addr`: 0 is STATUS, 1 is FCMD, any other is refused with ERR_RANGE and
returns 0 (R46, R48; DEDUCED, log 16). -/
def State.hostControlRead (s : State) (addr : Nat) : State :=
  s.answer
    (if addr = 0 then .controlRead .ok s.statusWord
    else if addr = 1 then .controlRead .ok s.fcmd
    else .controlRead .errRange 0)

/-- A control-space write is refused with ERR_RO and changes nothing (R49, 10_state.md R30), whatever its address
and value. -/
def State.hostControlWrite (s : State) (_addr : Nat) (_value : BitVec 32) : State :=
  s.answer (.controlWrite .errRo)

/-! ## The command port (60_exceptions.md R220) -/

/-- The port latches a packet: BUSY <- 1, and no packet waits any more. -/
def State.accept (s : State) (p : Packet) : State := { s with inFlight := some p, offered := none, reply := none }

/-- The port takes nothing: the host goes on offering the packet, and gets no answer (R220, R205). -/
def State.holdOffer (s : State) (p : Packet) : State := { s with offered := some p, reply := none }

/-- The port was given no whole packet, and there is no answer (30_encoding.md R61). -/
def State.noReply (s : State) : State := { s with reply := none }

/-- A packet offered while BUSY = 0 and HALTED = 0 is accepted; offered while BUSY = 1 or HALTED = 1 it is not
accepted and waits (R220, R205). -/
def State.hostOffer (s : State) (p : Packet) : State :=
  if s.busy || s.halted then s.holdOffer p else s.accept p

/-- A packet carried as bus words: offered once all three words are present, else the port takes nothing
(30_encoding.md R61; DESIGN CHOICE, log 18). -/
def State.hostOfferWords (s : State) (words : List (BitVec 32)) : State :=
  match packetOfBusWords words with
  | some p => s.hostOffer p
  | none => s.noReply

/-! ## Platform addresses (20_memory.md R51; DESIGN CHOICE, log 11) -/

/-- The host-window offset of a platform address, with `WINDOW_BASE` open. -/
def windowOffset (platformAddr : Nat) : Option Nat :=
  if Config.windowBase ≤ platformAddr then some (platformAddr - Config.windowBase) else none

/-- The control-space word address of a platform word address, with `CONTROL_BASE` open. -/
def controlOffset (platformAddr : Nat) : Option Nat :=
  if Config.controlBase ≤ platformAddr then some (platformAddr - Config.controlBase) else none

end Sys2Proof.Machine
end

