-- ==== Sys2Proof/Machine/Operands.lean ====
section
/-! DEFINITION. How a command reads its operands and narrows its result: the value readings, limbs, signs and
sentinels of 00_scope.md R8 to R10, and the limb operands of the primitives. -/

namespace Sys2Proof.Machine

/-- `uval(v)` of a 256-bit value (R9). -/
def uval (w : Word) : Nat := w.toNat

/-- `sval(v)` of a 256-bit value (R9). -/
def sval (w : Word) : Int := w.toInt

/-- `bits256(n)` of a natural number (R9). -/
def bits256 (n : Nat) : Word := BitVec.ofNat 256 n

/-- `bits256(n)` of an integer: the pattern with `uval = n mod 2^256` (R9). -/
def bits256Int (n : Int) : Word := BitVec.ofInt 256 n

/-- `v.limb(j) = v[64j+63:64j]` (R8). -/
def limb (w : Word) (j : Nat) : Limb := w.extractLsb' (64 * j) 64

/-- `uval(x[r].limb(j))`: a 64-bit unsigned operand of a limb primitive (10_state.md R21). -/
def State.limbOperand (s : State) (r : Reg) (j : Nat) : Nat := (limb (s.reg r) j).toNat

/-- A carry or borrow flag as the integer 0 or 1 (40_limb_primitives.md R100). -/
def flagVal (b : Bool) : Nat := if b then 1 else 0

/-- `zext_256(bits64(n))` (R9, R100, R101). -/
def zext64 (n : Nat) : Word := (BitVec.ofNat 64 n).setWidth 256

/-- `zext_256(bits64(n))` of an integer: `n mod 2^64` (R9, R101). -/
def zext64Int (n : Int) : Word := (BitVec.ofInt 64 n).setWidth 256

/-- `zext_256(bits128(n))` (R102, R103). -/
def zext128 (n : Nat) : Word := (BitVec.ofNat 128 n).setWidth 256

/-- `isNeg(v) = v[255]` (R10). -/
def isNeg (w : Word) : Bool := w.getLsbD 255

/-- `sign(v)`: −1, 0 or +1 (R10). -/
def sign (w : Word) : Int := if isNeg w then -1 else if uval w = 0 then 0 else 1

/-- `MinI256`: only the top bit set (R10). -/
def minI256 : Word := 0x8000000000000000000000000000000000000000000000000000000000000000

/-- `MaxI256`: every bit but the top bit set (R10). -/
def maxI256 : Word := 0x7FFFFFFFFFFFFFFFFFFFFFFFFFFFFFFFFFFFFFFFFFFFFFFFFFFFFFFFFFFFFFFF

/-- `negate(v) = bits256(2^256 − uval(v))` (R10). -/
def negate (w : Word) : Word := bits256 (2 ^ 256 - uval w)

/-- `absu(v)`: the magnitude as an unsigned integer (R10). -/
def absu (w : Word) : Nat := if isNeg w then uval (negate w) else uval w

/-- The pattern negated when `neg` holds: "reapplying sign" (R131, R140, R141). -/
def withSign (neg : Bool) (w : Word) : Word := if neg then negate w else w

end Sys2Proof.Machine
end

