-- ==== Sys2Proof/Machine/Flags.lean ====
section
/-! DEFINITION. Every flag computation of the spec: C of ADC64 and SBB64, V of ADDO, SUBO and MULO. -/

namespace Sys2Proof.Machine

/-- ADC64: `C <- 1 if s >= 2^64` (40_limb_primitives.md R100). -/
def carryOut (s : Nat) : Bool := decide (2 ^ 64 ≤ s)

/-- SBB64: `C <- 1 if d < 0` (40_limb_primitives.md R101). -/
def borrowOut (d : Int) : Bool := decide (d < 0)

/-- ADDO: operands of equal sign and a result of another sign (42_add_sub.md R123). -/
def addOverflow (a b r : Word) : Bool := decide (sign a = sign b ∧ sign r ≠ sign a)

/-- SUBO: `(a = 0 and b = MinI256) or (a ≠ 0 and sign(a) ≠ sign(b) and sign(a) ≠ sign(r))` (42_add_sub.md R124). -/
def subOverflow (a b r : Word) : Bool :=
  decide ((uval a = 0 ∧ b = minI256) ∨ (uval a ≠ 0 ∧ sign a ≠ sign b ∧ sign a ≠ sign r))

/-- MULO outside its special case, from the 512-bit product of the magnitudes: `p >= 2^256 or p[255] = 1`
(43_multiply.md R131). -/
def mulOverflow (p : Nat) : Bool := decide (2 ^ 256 ≤ p) || p.testBit 255

end Sys2Proof.Machine
end

