-- ==== Sys2Proof/Machine/AddSub.lean ====
section
/-! DEFINITION. Negation, wrapping and checked addition and subtraction, compare (42_add_sub.md R120 to R125).
The limb chains of R121 and R122 stand in Machine/Datapath.lean; their results are the closed forms used here. -/

namespace Sys2Proof.Machine

/-- The wrapping sum `bits256(uval(a) + uval(b))` (R121). -/
def addWord (a b : Word) : Word := bits256 (uval a + uval b)

/-- The wrapping difference `bits256(uval(a) − uval(b))` (R122). -/
def subWord (a b : Word) : Word := bits256Int ((uval a : Int) - uval b)

/-- The three-way comparison −1, 0 or +1 (R125, 90_conflicts.md C1): the more-positive sign wins; for equal signs the
unsigned difference decides. -/
def compareWord (a b : Word) : Int :=
  if sign a ≠ sign b then (if sign a > sign b then 1 else -1)
  else
    let d : Int := (uval a : Int) - uval b
    if d = 0 then 0 else if d < 0 then -1 else 1

/-- NEG (R120). -/
def execNeg (rd rs1 : Reg) (s : State) : Host.Outcome State Fault Refusal :=
  .next ((s.setReg rd (negate (s.reg rs1))).complete)

/-- ADD (R121). -/
def execAdd (rd rs1 rs2 : Reg) (s : State) : Host.Outcome State Fault Refusal :=
  .next ((s.setReg rd (addWord (s.reg rs1) (s.reg rs2))).complete)

/-- SUB (R122). -/
def execSub (rd rs1 rs2 : Reg) (s : State) : Host.Outcome State Fault Refusal :=
  .next ((s.setReg rd (subWord (s.reg rs1) (s.reg rs2))).complete)

/-- ADDO (R123): as ADD, and V takes the overflow. -/
def execAddo (rd rs1 rs2 : Reg) (s : State) : Host.Outcome State Fault Refusal :=
  let a := s.reg rs1
  let b := s.reg rs2
  let r := addWord a b
  .next (((s.setReg rd r).setV (addOverflow a b r)).complete)

/-- SUBO (R124): as SUB, and V takes the overflow. -/
def execSubo (rd rs1 rs2 : Reg) (s : State) : Host.Outcome State Fault Refusal :=
  let a := s.reg rs1
  let b := s.reg rs2
  let r := subWord a b
  .next (((s.setReg rd r).setV (subOverflow a b r)).complete)

/-- CMP (R125): the result is written as a 256-bit signed −1, 0 or +1; no flag is written. -/
def execCmp (rd rs1 rs2 : Reg) (s : State) : Host.Outcome State Fault Refusal :=
  .next ((s.setReg rd (bits256Int (compareWord (s.reg rs1) (s.reg rs2)))).complete)

end Sys2Proof.Machine
end

