-- ==== Sys2Proof/Machine/Divide.lean ====
section
/-! DEFINITION. Signed quotient and remainder and the unsigned division engine (44_divide.md R140 to R142). A zero divisor
takes the fault ZERO_DIVISION before anything else, with the command's own header in FCMD (60_exceptions.md R200, R203; DEDUCED, log 12). -/

namespace Sys2Proof.Machine

/-- The truncating quotient of a nonzero divisor: magnitudes divided, sign reapplied (R140). -/
def quoWord (a b : Word) : Word := withSign (isNeg a != isNeg b) (bits256 (absu a / absu b))

/-- The remainder with the sign of the dividend (R141). -/
def remWord (a b : Word) : Word := withSign (isNeg a) (bits256 (absu a % absu b))

/-- QUO (R140). -/
def execQuo (rd rs1 rs2 : Reg) (s : State) : Host.Outcome State Fault Refusal :=
  if uval (s.reg rs2) = 0 then .next (s.takeFault .zeroDivision (Instr.quo rd rs1 rs2).header)
  else .next ((s.setReg rd (quoWord (s.reg rs1) (s.reg rs2))).complete)

/-- REM (R141). -/
def execRem (rd rs1 rs2 : Reg) (s : State) : Host.Outcome State Fault Refusal :=
  if uval (s.reg rs2) = 0 then .next (s.takeFault .zeroDivision (Instr.rem rd rs1 rs2).header)
  else .next ((s.setReg rd (remWord (s.reg rs1) (s.reg rs2))).complete)

/-- UDIVREM (R142): quotient to `rd`, remainder to `rd2`, the remainder written last; both operands unsigned. -/
def execUdivrem (rd rd2 rs1 rs2 : Reg) (s : State) : Host.Outcome State Fault Refusal :=
  let u := uval (s.reg rs1)
  let d := uval (s.reg rs2)
  if d = 0 then .next (s.takeFault .zeroDivision (Instr.udivrem rd rd2 rs1 rs2).header)
  else .next (((s.setReg rd (bits256 (u / d))).setReg rd2 (bits256 (u % d))).complete)

end Sys2Proof.Machine
end

