-- ==== Sys2Proof/Machine/Limb.lean ====
section
/-! DEFINITION. The limb arithmetic primitives (40_limb_primitives.md R100 to R103).
Every source and flag is read from the old state `s` before anything is written (10_state.md R24). -/

namespace Sys2Proof.Machine

/-- ADC64 (R100): 64-bit add with carry of limbs 0; C is the carry-in and takes the carry-out. -/
def execAdc64 (rd rs1 rs2 : Reg) (s : State) : Host.Outcome State Fault Refusal :=
  let sum := s.limbOperand rs1 0 + s.limbOperand rs2 0 + flagVal s.c
  .next (((s.setReg rd (zext64 sum)).setC (carryOut sum)).complete)

/-- SBB64 (R101): 64-bit subtract with borrow of limbs 0; C is the borrow-in and takes the borrow-out. -/
def execSbb64 (rd rs1 rs2 : Reg) (s : State) : Host.Outcome State Fault Refusal :=
  let diff : Int := s.limbOperand rs1 0 - s.limbOperand rs2 0 - flagVal s.c
  .next (((s.setReg rd (zext64Int diff)).setC (borrowOut diff)).complete)

/-- MULW64 (R102): the full 128-bit product of limbs 0. -/
def execMulw64 (rd rs1 rs2 : Reg) (s : State) : Host.Outcome State Fault Refusal :=
  .next ((s.setReg rd (zext128 (s.limbOperand rs1 0 * s.limbOperand rs2 0))).complete)

/-- MADC64 (R103): `a·b + acc + carryIn`, with `acc` and `carryIn` in limbs 0 and 1 of `x[rs3]`; C is neither read
nor written. -/
def execMadc64 (rd rs1 rs2 rs3 : Reg) (s : State) : Host.Outcome State Fault Refusal :=
  let p := s.limbOperand rs1 0 * s.limbOperand rs2 0 + s.limbOperand rs3 0 + s.limbOperand rs3 1
  .next ((s.setReg rd (zext128 p)).complete)

end Sys2Proof.Machine
end

