-- ==== Sys2Proof/Machine/Load.lean ====
section
/-! DEFINITION. The register load and flag commands (41_register_load.md R110 to R117). -/

namespace Sys2Proof.Machine

/-- NOP (R110): completes like any command, with no effect. -/
def execNop (s : State) : Host.Outcome State Fault Refusal := .next s.complete

/-- MOV (R111). -/
def execMov (rd rs1 : Reg) (s : State) : Host.Outcome State Fault Refusal :=
  .next ((s.setReg rd (s.reg rs1)).complete)

/-- CLR (R112). -/
def execClr (rd : Reg) (s : State) : Host.Outcome State Fault Refusal := .next ((s.setReg rd (bits256 0)).complete)

/-- ONE (R113). -/
def execOne (rd : Reg) (s : State) : Host.Outcome State Fault Refusal := .next ((s.setReg rd (bits256 1)).complete)

/-- ALL1 (R114): every bit 1. -/
def execAll1 (rd : Reg) (s : State) : Host.Outcome State Fault Refusal := .next ((s.setReg rd (BitVec.allOnes 256)).complete)

/-- LDS64 (R115): `sext_256(imm)`. -/
def execLds64 (rd : Reg) (imm : BitVec 64) (s : State) : Host.Outcome State Fault Refusal :=
  .next ((s.setReg rd (imm.signExtend 256)).complete)

/-- LDU64 (R116): `zext_256(imm)`. -/
def execLdu64 (rd : Reg) (imm : BitVec 64) (s : State) : Host.Outcome State Fault Refusal :=
  .next ((s.setReg rd (imm.setWidth 256)).complete)

/-- WRFLAGS (R117): `C <- imm[0]; V <- imm[1]`, both always. -/
def execWrflags (imm : BitVec 64) (s : State) : Host.Outcome State Fault Refusal :=
  .next (((s.setC (imm.getLsbD 0)).setV (imm.getLsbD 1)).complete)

end Sys2Proof.Machine
end

