-- ==== Sys2Proof/Machine/Multiply.lean ====
section
/-! DEFINITION. Multiplication and exponentiation (43_multiply.md R130 to R132). The 4×4 grid of R130 stands in
Machine/Datapath.lean; its result is the closed form used here. -/

namespace Sys2Proof.Machine

/-- The wrapping product `bits256(uval(a) · uval(b))` (R130). -/
def mulWord (a b : Word) : Word := bits256 (uval a * uval b)

/-- MULO's result and overflow (R131, 90_conflicts.md C2): the special case `MinI256 · 1`, else the product of the
magnitudes with the recorded sign. -/
def mulChecked (a b : Word) : Word × Bool :=
  if (a = minI256 ∧ uval b = 1) ∨ (uval a = 1 ∧ b = minI256) then (minI256, false)
  else
    let p := absu a * absu b
    (withSign (isNeg a != isNeg b) (bits256 p), mulOverflow p)

/-- The loop of R132: while `e > 0`, multiply the result in when `e` is odd, square the base, halve `e`. The first
argument bounds the rounds. -/
def powLoop : Nat → Word → Nat → Word → Word
  | 0, _, _, z => z
  | rounds + 1, base, e, z =>
    if e = 0 then z
    else powLoop rounds (mulWord base base) (e / 2) (if e % 2 = 1 then mulWord z base else z)

/-- Exponentiation by squaring with all 256 bits of the exponent unsigned (R132); a 256-bit exponent takes at most 256
rounds (DEDUCED, log 15). -/
def powWord (base n : Word) : Word := powLoop 256 base (uval n) (bits256 1)

/-- MUL (R130). -/
def execMul (rd rs1 rs2 : Reg) (s : State) : Host.Outcome State Fault Refusal :=
  .next ((s.setReg rd (mulWord (s.reg rs1) (s.reg rs2))).complete)

/-- MULO (R131): V takes the overflow. -/
def execMulo (rd rs1 rs2 : Reg) (s : State) : Host.Outcome State Fault Refusal :=
  let r := mulChecked (s.reg rs1) (s.reg rs2)
  .next (((s.setReg rd r.1).setV r.2).complete)

/-- POW (R132): a wrapping operation, no flag is written. -/
def execPow (rd rs1 rs2 : Reg) (s : State) : Host.Outcome State Fault Refusal :=
  .next ((s.setReg rd (powWord (s.reg rs1) (s.reg rs2))).complete)

end Sys2Proof.Machine
end

