-- ==== Sys2Proof/Machine/Shift.lean ====
section
/-! DEFINITION. The barrel shifter (45_shift.md R150, R151); the amount is all 256 bits of `x[rs2]`, unsigned. -/

namespace Sys2Proof.Machine

/-- `a · 2^n`, bits past 255 lost; 0 for `n ≥ 256` (R150). -/
def shlWord (a : Word) (n : Nat) : Word := if 256 ≤ n then bits256 0 else bits256 (uval a * 2 ^ n)

/-- `floor(sval(a) / 2^n)`; for `n ≥ 255` all ones or 0 by the sign (R151). -/
def shrWord (a : Word) (n : Nat) : Word :=
  if 255 ≤ n then (if isNeg a then BitVec.allOnes 256 else bits256 0)
  else bits256Int (Int.fdiv (sval a) (2 ^ n))

/-- SHL (R150). -/
def execShl (rd rs1 rs2 : Reg) (s : State) : Host.Outcome State Fault Refusal :=
  .next ((s.setReg rd (shlWord (s.reg rs1) (uval (s.reg rs2)))).complete)

/-- SHR (R151). -/
def execShr (rd rs1 rs2 : Reg) (s : State) : Host.Outcome State Fault Refusal :=
  .next ((s.setReg rd (shrWord (s.reg rs1) (uval (s.reg rs2)))).complete)

end Sys2Proof.Machine
end

