-- ==== Sys2Proof/Machine/Sqrt.lean ====
section
/-! DEFINITION. The square-root unit (46_sqrt.md R160). The Newton iteration of R161 stands in Machine/Datapath.lean. -/

namespace Sys2Proof.Machine

/-- Settle the low `i` bits of a root from the top down, keeping a bit when the square stays at most `v`. -/
def isqrtBits (v : Nat) : Nat → Nat → Nat
  | 0, root => root
  | i + 1, root => isqrtBits v i (if (root + 2 ^ i) * (root + 2 ^ i) ≤ v then root + 2 ^ i else root)

/-- `isqrt(v)`: the largest `s ≥ 0` with `s·s ≤ v`, for `v < 2^256` (R160, DEDUCED, log 15). -/
def isqrt (v : Nat) : Nat := isqrtBits v 128 0

/-- SQRT (R160): a negative operand takes the fault NEGATIVE_ARGUMENT, with the command's own header in FCMD
(60_exceptions.md R200, R203; DEDUCED, log 12). -/
def execSqrt (rd rs1 : Reg) (s : State) : Host.Outcome State Fault Refusal :=
  if isNeg (s.reg rs1) then .next (s.takeFault .negativeArgument (Instr.sqrt rd rs1).header)
  else .next ((s.setReg rd (bits256 (isqrt (uval (s.reg rs1))))).complete)

end Sys2Proof.Machine
end

