-- ==== Sys2Proof/Machine/Dispatch.lean ====
section
/-! DEFINITION. One arm per command: executing a decoded command is one atomic step (60_exceptions.md R221). -/

namespace Sys2Proof.Machine

def exec (i : Instr) (s : State) : Host.Outcome State Fault Refusal :=
  match i with
  | .nop => Sys2Proof.Machine.execNop s
  | .adc64 rd rs1 rs2 => Sys2Proof.Machine.execAdc64 rd rs1 rs2 s
  | .sbb64 rd rs1 rs2 => Sys2Proof.Machine.execSbb64 rd rs1 rs2 s
  | .mulw64 rd rs1 rs2 => Sys2Proof.Machine.execMulw64 rd rs1 rs2 s
  | .madc64 rd rs1 rs2 rs3 => Sys2Proof.Machine.execMadc64 rd rs1 rs2 rs3 s
  | .mov rd rs1 => Sys2Proof.Machine.execMov rd rs1 s
  | .clr rd => Sys2Proof.Machine.execClr rd s
  | .one rd => Sys2Proof.Machine.execOne rd s
  | .all1 rd => Sys2Proof.Machine.execAll1 rd s
  | .lds64 rd imm => Sys2Proof.Machine.execLds64 rd imm s
  | .ldu64 rd imm => Sys2Proof.Machine.execLdu64 rd imm s
  | .wrflags imm => Sys2Proof.Machine.execWrflags imm s
  | .neg rd rs1 => Sys2Proof.Machine.execNeg rd rs1 s
  | .add rd rs1 rs2 => Sys2Proof.Machine.execAdd rd rs1 rs2 s
  | .sub rd rs1 rs2 => Sys2Proof.Machine.execSub rd rs1 rs2 s
  | .addo rd rs1 rs2 => Sys2Proof.Machine.execAddo rd rs1 rs2 s
  | .subo rd rs1 rs2 => Sys2Proof.Machine.execSubo rd rs1 rs2 s
  | .cmp rd rs1 rs2 => Sys2Proof.Machine.execCmp rd rs1 rs2 s
  | .mul rd rs1 rs2 => Sys2Proof.Machine.execMul rd rs1 rs2 s
  | .mulo rd rs1 rs2 => Sys2Proof.Machine.execMulo rd rs1 rs2 s
  | .pow rd rs1 rs2 => Sys2Proof.Machine.execPow rd rs1 rs2 s
  | .quo rd rs1 rs2 => Sys2Proof.Machine.execQuo rd rs1 rs2 s
  | .rem rd rs1 rs2 => Sys2Proof.Machine.execRem rd rs1 rs2 s
  | .udivrem rd rd2 rs1 rs2 => Sys2Proof.Machine.execUdivrem rd rd2 rs1 rs2 s
  | .shl rd rs1 rs2 => Sys2Proof.Machine.execShl rd rs1 rs2 s
  | .shr rd rs1 rs2 => Sys2Proof.Machine.execShr rd rs1 rs2 s
  | .sqrt rd rs1 => Sys2Proof.Machine.execSqrt rd rs1 s

end Sys2Proof.Machine
end

