-- ==== Sys2Proof/Machine/Port.lean ====
section
/-! DEFINITION. Who moves next: the command port, the core and the host (00_scope.md R15; 60_exceptions.md R205, R220, R223;
DESIGN CHOICE, logs 1 to 6). -/

namespace Sys2Proof.Machine

/-- One move of one agent. -/
inductive Move where
  /-- the core executes the accepted packet (R221) -/
  | execute (p : Packet)
  /-- the port accepts the packet that waited (R220) -/
  | accept (p : Packet)
  /-- the host makes its next interaction; `rest` is what it has left to make -/
  | host (a : HostAction) (rest : List HostAction)
  deriving DecidableEq, Repr

/-- The core's move, if it has one. While HALTED = 1 the core takes no step and the port accepts nothing (R205); while a
command is in progress it is executed; otherwise a waiting packet is accepted (R220). -/
def coreMove (s : State) : Option Move :=
  if s.halted then none
  else match s.inFlight, s.offered with
    | some p, _ => some (.execute p)
    | none, some p => some (.accept p)
    | none, none => none

/-- The interaction puts a packet at the command port. -/
def offersPacket : HostAction → Bool
  | .offer _ => true
  | .offerWords words => (packetOfBusWords words).isSome
  | .windowRead .. | .windowWrite .. | .controlRead _ | .controlWrite .. | .reset _ => false

/-- The host's move, if it has one: its next interaction. The port holds one packet and has no queue (R220), so an
interaction that offers a packet while one waits has to wait (DESIGN CHOICE, log 3). A host access does not: it may come
before the acceptance of a packet that was offered earlier and still waits (20_memory.md R53; DESIGN CHOICE, log 24). -/
def hostMove (s : State) : Option Move :=
  match s.script with
  | [] => none
  | a :: rest => if offersPacket a && s.offered.isSome then none else some (.host a rest)

/-- The next move: that of the agent whose turn it is, else the other's. With no turn given the core goes first
(DESIGN CHOICE, log 2). -/
def nextMove (s : State) : Option Move :=
  match s.turns with
  | .host :: _ => (hostMove s).or (coreMove s)
  | .core :: _ | [] => (coreMove s).or (hostMove s)

/-- One turn is used up. -/
def State.nextTurn (s : State) : State := { s with turns := s.turns.tail }

/-- What the host has left to do. -/
def State.setScript (s : State) (rest : List HostAction) : State := { s with script := rest }

/-- What the host's interaction does (R223). -/
def State.hostAct (s : State) : HostAction → State
  | .offer p => s.hostOffer p
  | .offerWords words => s.hostOfferWords words
  | .windowRead addr size => s.hostWindowRead addr size
  | .windowWrite addr data => s.hostWindowWrite addr data
  | .controlRead addr => s.hostControlRead addr
  | .controlWrite addr value => s.hostControlWrite addr value
  | .reset keepOffer => s.hostReset keepOffer

end Sys2Proof.Machine
end

