-- ==== Sys2Proof/Machine/Execute.lean ====
section
/-! DEFINITION. Executing an accepted packet, and performing one move (60_exceptions.md R207, R220, R221). -/

namespace Sys2Proof.Machine

/-- Executing an accepted packet: decode; if illegal, fault, before any operand is read (R207); else the command's
meaning (R221). -/
def executePacket (p : Packet) (s : State) : Host.Outcome State Fault Refusal :=
  match decode p with
  | .illegal _ => .next (s.takeFault .illegalCommand p.hdr)
  | .command i => exec i s

/-- One move, on a state whose turn is used up. -/
def perform (m : Move) (s : State) : Host.Outcome State Fault Refusal :=
  match m with
  | .execute p => executePacket p s
  | .accept p => .next (s.accept p)
  | .host a rest => .next ((s.setScript rest).hostAct a)

/-- Why nothing happens when neither agent can move (R205, R224). -/
def stuckReason (s : State) : Fault := if s.halted then .halted else .idle

/-- The state in which a packet has just been accepted and the core moves next: not halted, BUSY = 1 with that packet
(R220). -/
def State.withAccepted (s : State) (p : Packet) : State :=
  { s with inFlight := some p, fault := .none, fcmd := 0, turns := [] }

end Sys2Proof.Machine
end

