-- ==== Sys2Proof/Machine/Step.lean ====
section
/-! DEFINITION. One step of the machine: the next move of the core or of the host (00_scope.md R15). -/

namespace Sys2Proof.Machine

/-- One step: the next move is performed with one turn used up; when neither agent can move, the machine is stuck
under a name (DESIGN CHOICE, logs 2 and 7). -/
def step (s : State) : Host.Outcome State Fault Refusal :=
  match nextMove s with
  | some m => perform m s.nextTurn
  | none => .fault (stuckReason s)

/-- `s` with the packet of a table word accepted, so that the next step executes exactly it. The core fetches nothing
(20_memory.md R55): where other machines fetch, this one takes what the command port has latched (DESIGN CHOICE, log 13). -/
def State.withFetchWord (s : State) (nbits w : Nat) : State := s.withAccepted (packetOfTableWord nbits w)

end Sys2Proof.Machine
end

