-- ==== Sys2Proof/Machine/Assembler.lean ====
section
/-! DEFINITION. The assembler of 30_encoding.md R69 and the pseudo-instructions of R70: from one line of text to the
commands it stands for. It is a tool of the host's and takes no part in `step`. What R69 leaves open in the text's
form is in log 20 (DESIGN CHOICE). -/

namespace Sys2Proof.Machine

/-! ## Operands -/

/-- An operand as written: a register `r<n>` or an immediate. -/
inductive AsmOperand where
  | reg (n : Nat)
  | imm (n : Int)
  deriving DecidableEq, Repr

/-- Registers are `r0` to `r15`; any other number is refused (R69). -/
def operandReg : AsmOperand → Option Reg
  | .reg n => if h : n < 16 then some ⟨n, h⟩ else none
  | .imm _ => none

/-- An immediate within `lo ≤ imm ≤ hi`, else refused, as its 64-bit two's-complement pattern (R69). -/
def operandImm (lo hi : Int) : AsmOperand → Option (BitVec 64)
  | .imm n => if lo ≤ n ∧ n ≤ hi then some (BitVec.ofInt 64 n) else none
  | .reg _ => none

/-- Operand order of format R1: `rd`. -/
def operands1 (f : Reg → Instr) : List AsmOperand → Option Instr
  | [d] => do return f (← operandReg d)
  | _ => none

/-- Operand order of format R2: `rd, rs1`. -/
def operands2 (f : Reg → Reg → Instr) : List AsmOperand → Option Instr
  | [d, a] => do return f (← operandReg d) (← operandReg a)
  | _ => none

/-- Operand order of format R3: `rd, rs1, rs2`. -/
def operands3 (f : Reg → Reg → Reg → Instr) : List AsmOperand → Option Instr
  | [d, a, b] => do return f (← operandReg d) (← operandReg a) (← operandReg b)
  | _ => none

/-- Operand order of format R4: `rd, rs1, rs2, rs3`, for UDIVREM `rd, rd2, rs1, rs2`. -/
def operands4 (f : Reg → Reg → Reg → Reg → Instr) : List AsmOperand → Option Instr
  | [d, a, b, e] => do return f (← operandReg d) (← operandReg a) (← operandReg b) (← operandReg e)
  | _ => none

/-- Operand order of format I: `rd, imm` with `lo ≤ imm ≤ hi`. -/
def operandsImm (f : Reg → BitVec 64 → Instr) (lo hi : Int) : List AsmOperand → Option Instr
  | [d, n] => do return f (← operandReg d) (← operandImm lo hi n)
  | _ => none

/-! ## Commands and pseudo-instructions -/

/-- The command a lower-case mnemonic and its operands stand for (R65, R69). -/
def assembleCommand (mnemonic : String) (ops : List AsmOperand) : Option Instr :=
  match mnemonic with
  | "nop" => if ops = [] then some .nop else none
  | "adc64" => operands3 .adc64 ops
  | "sbb64" => operands3 .sbb64 ops
  | "mulw64" => operands3 .mulw64 ops
  | "madc64" => operands4 .madc64 ops
  | "mov" => operands2 .mov ops
  | "clr" => operands1 .clr ops
  | "one" => operands1 .one ops
  | "all1" => operands1 .all1 ops
  | "lds64" => operandsImm .lds64 (-2 ^ 63) (2 ^ 63 - 1) ops
  | "ldu64" => operandsImm .ldu64 0 (2 ^ 64 - 1) ops
  | "wrflags" =>
    match ops with
    | [n] => (operandImm 0 3 n).map .wrflags
    | _ => none
  | "neg" => operands2 .neg ops
  | "add" => operands3 .add ops
  | "sub" => operands3 .sub ops
  | "addo" => operands3 .addo ops
  | "subo" => operands3 .subo ops
  | "cmp" => operands3 .cmp ops
  | "mul" => operands3 .mul ops
  | "mulo" => operands3 .mulo ops
  | "pow" => operands3 .pow ops
  | "quo" => operands3 .quo ops
  | "rem" => operands3 .rem ops
  | "udivrem" => operands4 .udivrem ops
  | "shl" => operands3 .shl ops
  | "shr" => operands3 .shr ops
  | "sqrt" => operands2 .sqrt ops
  | _ => none

/-- A pseudo-instruction of R70 with its operands read. -/
inductive Pseudo where
  | clrf
  | setc
  | li (rd : Reg) (n : Int)
  | ldmin (rd rt : Reg)
  | ldmax (rd rt : Reg)
  | sar (rd rs1 rs2 : Reg)
  | copy (rd rs1 : Reg)
  deriving DecidableEq, Repr

/-- The expansion of a pseudo-instruction, or a refusal (R70). -/
def expandPseudo : Pseudo → Option (List Instr)
  | .clrf => some [.wrflags 0]
  | .setc => some [.wrflags 1]
  | .li rd n =>
    if -2 ^ 63 ≤ n ∧ n < 2 ^ 63 then some [.lds64 rd (BitVec.ofInt 64 n)]
    else if 2 ^ 63 ≤ n ∧ n < 2 ^ 64 then some [.ldu64 rd (BitVec.ofInt 64 n)]
    else none
  | .ldmin rd rt => if rd = rt then none else some [.one rd, .ldu64 rt 255, .shl rd rd rt]
  | .ldmax rd rt =>
    if rd = rt then none else some [.one rd, .ldu64 rt 255, .shl rd rd rt, .one rt, .sub rd rd rt]
  | .sar rd rs1 rs2 => some [.shr rd rs1 rs2]
  | .copy rd rs1 => some [.mov rd rs1]

/-- The pseudo-instruction a lower-case mnemonic and its operands stand for (R70). -/
def readPseudo (mnemonic : String) (ops : List AsmOperand) : Option Pseudo :=
  match mnemonic, ops with
  | "clrf", [] => some .clrf
  | "setc", [] => some .setc
  | "li", [d, .imm n] => (operandReg d).map fun rd => .li rd n
  | "ldmin", [d, t] => do return .ldmin (← operandReg d) (← operandReg t)
  | "ldmax", [d, t] => do return .ldmax (← operandReg d) (← operandReg t)
  | "sar", [d, a, b] => do return .sar (← operandReg d) (← operandReg a) (← operandReg b)
  | "copy", [d, a] => do return .copy (← operandReg d) (← operandReg a)
  | _, _ => none

/-! ## Lines of text -/

/-- The characters R69's fields are separated by. -/
def isBlankChar (ch : Char) : Bool := ch == ' ' || ch == '\t'

/-- `;` starts a comment (R69). -/
def dropComment : List Char → List Char
  | [] => []
  | ch :: rest => if ch == ';' then [] else ch :: dropComment rest

/-- Without the blanks at both ends. -/
def trimBlanks (cs : List Char) : List Char :=
  ((cs.dropWhile isBlankChar).reverse.dropWhile isBlankChar).reverse

/-- The fields between commas. -/
def splitCommas : List Char → List (List Char)
  | [] => [[]]
  | ch :: rest =>
    if ch == ',' then [] :: splitCommas rest
    else match splitCommas rest with
      | [] => [[ch]]
      | field :: fields => (ch :: field) :: fields

/-- The value of a digit, decimal or hexadecimal. -/
def digitValue (ch : Char) : Option Nat :=
  let n := ch.toNat
  if 48 ≤ n ∧ n ≤ 57 then some (n - 48)
  else if 97 ≤ n ∧ n ≤ 102 then some (n - 87)
  else if 65 ≤ n ∧ n ≤ 70 then some (n - 55)
  else none

/-- The value of digits in a base, continuing from `acc`. -/
def digitsValue (base : Nat) : Nat → List Char → Option Nat
  | acc, [] => some acc
  | acc, ch :: rest =>
    match digitValue ch with
    | some d => if d < base then digitsValue base (acc * base + d) rest else none
    | none => none

/-- A number in a base: at least one digit. -/
def readNumber (base : Nat) (cs : List Char) : Option Nat := if cs = [] then none else digitsValue base 0 cs

/-- An operand: a register `r<n>`, or an immediate, decimal (optionally with a leading `-`) or hexadecimal with `0x`
(R69). -/
def readOperand : List Char → Option AsmOperand
  | 'r' :: digits => (readNumber 10 digits).map .reg
  | '0' :: 'x' :: digits => (readNumber 16 digits).map fun n => .imm n
  | '-' :: digits => (readNumber 10 digits).map fun n => .imm (-(n : Int))
  | digits => (readNumber 10 digits).map fun n => .imm n

/-- Every operand of a list of fields, or a refusal. -/
def readOperands : List (List Char) → Option (List AsmOperand)
  | [] => some []
  | field :: fields => do return (← readOperand (trimBlanks field)) :: (← readOperands fields)

/-- The commands one line stands for: one command, a pseudo-instruction's expansion, none for a blank line; a line that
does not read, or an operand out of range, is refused (R69, R70). -/
def assembleLine (line : String) : Option (List Instr) :=
  let text := trimBlanks (dropComment line.toList)
  if text = [] then some []
  else
    let mnemonic := String.ofList ((text.takeWhile fun ch => !isBlankChar ch).map Char.toLower)
    let rest := trimBlanks (text.dropWhile fun ch => !isBlankChar ch)
    match (if rest = [] then some [] else readOperands (splitCommas rest)) with
    | none => none
    | some ops =>
      match assembleCommand mnemonic ops with
      | some i => some [i]
      | none => (readPseudo mnemonic ops).bind expandPseudo

/-- The packets of a program, one line after another (R61, R69). -/
def assembleProgram : List String → Option (List Packet)
  | [] => some []
  | line :: lines => do
    let here ← assembleLine line
    let later ← assembleProgram lines
    return here.map encode ++ later

end Sys2Proof.Machine
end

