-- ==== Sys2Proof/Machine/Datapath.lean ====
section
/-! DEFINITION. The datapath algorithms the rules spell out limb by limb: the carry chain (42_add_sub.md R121), the
borrow chain (R122), the 4×4 multiply grid (43_multiply.md R130) and the Newton iteration (46_sqrt.md R161).
The commands use the closed forms those rules give beside them; that the two agree is stated as obligations. -/

namespace Sys2Proof.Machine

/-- The word whose limbs are the four naturals, limb 0 first (00_scope.md R8). -/
def ofLimbs (l0 l1 l2 l3 : Limb) : Word := l3 ++ l2 ++ l1 ++ l0

/-- One step of the carry chain, `addWithCarry` (40_limb_primitives.md R100): the sum limb and the carry-out. -/
def addLimbs (a b : Limb) (cin : Bool) : Limb × Bool :=
  let s := a.toNat + b.toNat + flagVal cin
  (BitVec.ofNat 64 s, carryOut s)

/-- One step of the borrow chain, `subWithBorrow` (40_limb_primitives.md R101). -/
def subLimbs (a b : Limb) (bin : Bool) : Limb × Bool :=
  let d : Int := a.toNat - b.toNat - flagVal bin
  (BitVec.ofInt 64 d, borrowOut d)

/-- The 4-limb ripple of a limb step, limb 0 first, with the last carry or borrow (R121, R122). -/
def limbChain (f : Limb → Limb → Bool → Limb × Bool) (a b : Word) : Word × Bool :=
  let r0 := f (limb a 0) (limb b 0) false
  let r1 := f (limb a 1) (limb b 1) r0.2
  let r2 := f (limb a 2) (limb b 2) r1.2
  let r3 := f (limb a 3) (limb b 3) r2.2
  (ofLimbs r0.1 r1.1 r2.1 r3.1, r3.2)

/-- The carry chain of R121. -/
def addChain (a b : Word) : Word × Bool := limbChain addLimbs a b

/-- The borrow chain of R122. -/
def subChain (a b : Word) : Word × Bool := limbChain subLimbs a b

/-- The same-sign branch of CMP on the borrow chain (R125): no borrow and a zero difference is equal, a borrow is less,
otherwise greater. -/
def compareChain (a b : Word) : Int :=
  let r := subChain a b
  if r.2 then -1 else if r.1 = 0 then 0 else 1

/-- `mulAddWithCarry(acc, a, b, carryIn) -> (hi, lo)` (40_limb_primitives.md R103). -/
def mulAddLimbs (acc a b cin : Nat) : Nat × Nat :=
  let p := a * b + acc + cin
  (p / 2 ^ 64, p % 2 ^ 64)

/-- The inner loop of R130: one row of the grid added into the accumulator limbs `t`, the carry running on; the row's
last carry becomes the next limb. Both lists are least significant limb first. -/
def gridRow (b carry : Nat) : List Nat → List Nat → List Nat
  | t :: ts, a :: as =>
    let r := mulAddLimbs t a b carry
    r.2 :: gridRow b r.1 ts as
  | _, _ => [carry]

/-- The outer loop of R130: row `i` is added from accumulator limb `i` on; a limb below it is finished. -/
def gridRows (as : List Nat) : List Nat → List Nat → List Nat
  | [], t => t
  | b :: bs, t =>
    match gridRow b 0 t as with
    | [] => []
    | lo :: rest => lo :: gridRows as bs rest

/-- The four limbs of a word, limb 0 first. -/
def limbsOf (w : Word) : List Nat := [(limb w 0).toNat, (limb w 1).toNat, (limb w 2).toNat, (limb w 3).toNat]

/-- The value of a list of limbs, least significant first. -/
def limbsValue : List Nat → Nat
  | [] => 0
  | l :: ls => l + 2 ^ 64 * limbsValue ls

/-- The 4×4 grid of R130: the eight limbs of the 512-bit product. -/
def mulGrid (a b : Word) : List Nat := gridRows (limbsOf a) (limbsOf b) [0, 0, 0, 0]

/-- The position of the highest set bit + 1, 0 for 0 (R161). -/
def bitLength (v : Nat) : Nat := if v = 0 then 0 else v.log2 + 1

/-- The loop of R161, from the iterate `z`; the first argument bounds the rounds. -/
def newtonLoop (v : Nat) : Nat → Nat → Nat
  | 0, z => z
  | rounds + 1, z =>
    let next := (v / z + z) / 2
    if z ≤ next then z else newtonLoop v rounds next

/-- The initial guess `1 << ceil(bitLength(v)/2)` (R161). -/
def newtonStart (v : Nat) : Nat := 2 ^ ((bitLength v + 1) / 2)

/-- The Newton square root of R161; 0 without iterating for `v = 0` (D22). The iterates decrease, so as many rounds as
the first iterate are enough. -/
def newtonSqrt (v : Nat) : Nat := if v = 0 then 0 else newtonLoop v (newtonStart v) (newtonStart v)

end Sys2Proof.Machine
end

