-- ==== Sys2Proof/Safety.lean ====
section
/-! DEFINITION. The terms claims are stated in: how a command completes, what it may write, the invariant of the
block, and the end of a run (60_exceptions.md R224). -/

namespace Sys2Proof.Machine

/-! ## How a command ends -/

/-- From `s` to `t` a command completed without a fault: BUSY is 0, `done` is signalled, and FAULT, FCMD and the host's
side are as they were (10_state.md R32; 60_exceptions.md R204, R221). -/
def Completed (s t : State) : Prop :=
  t.busy = false ∧ t.reply = some .done ∧ t.fault = s.fault ∧ t.fcmd = s.fcmd ∧
  t.offered = s.offered ∧ t.script = s.script ∧ t.turns = s.turns

/-- Every register but `rd` is unchanged (10_state.md R23). -/
def SameRegsBut (rd : Reg) (s t : State) : Prop := ∀ r, r ≠ rd → t.reg r = s.reg r

/-- Both flags are unchanged. -/
def SameFlags (s t : State) : Prop := t.c = s.c ∧ t.v = s.v

/-- The command completed, wrote `w` to `x[rd]`, and changed no other register and no flag. -/
def WroteOnly (rd : Reg) (w : Word) (s t : State) : Prop :=
  Completed s t ∧ t.reg rd = w ∧ SameRegsBut rd s t ∧ SameFlags s t

/-- The state after a fault is the state before the command except for FAULT, FCMD and BUSY, with the `done` event
(60_exceptions.md R202, R203). -/
def FaultedPrecisely (code : FaultCode) (hdr : Header) (s t : State) : Prop :=
  t.fault = code ∧ t.fcmd = hdr ∧ t.busy = false ∧ t.reply = some .done ∧
  (∀ r, t.reg r = s.reg r) ∧ SameFlags s t ∧
  t.offered = s.offered ∧ t.script = s.script ∧ t.turns = s.turns

/-- The registers a command writes when it completes: `rd`, and for UDIVREM `rd2` as well (10_state.md R23). -/
def destinations : Instr → List Reg
  | .nop | .wrflags _ => []
  | .clr rd | .one rd | .all1 rd | .lds64 rd _ | .ldu64 rd _ | .mov rd _ | .neg rd _ | .sqrt rd _
  | .adc64 rd _ _ | .sbb64 rd _ _ | .mulw64 rd _ _ | .madc64 rd _ _ _ | .add rd _ _ | .sub rd _ _
  | .addo rd _ _ | .subo rd _ _ | .cmp rd _ _ | .mul rd _ _ | .mulo rd _ _ | .pow rd _ _ | .quo rd _ _
  | .rem rd _ _ | .shl rd _ _ | .shr rd _ _ => [rd]
  | .udivrem rd rd2 _ _ => [rd, rd2]

/-- The commands that write C (10_state.md R26). -/
def writesC : Instr → Bool
  | .adc64 .. | .sbb64 .. | .wrflags _ => true
  | .nop | .mulw64 .. | .madc64 .. | .mov .. | .clr _ | .one _ | .all1 _ | .lds64 .. | .ldu64 .. | .neg ..
  | .add .. | .sub .. | .addo .. | .subo .. | .cmp .. | .mul .. | .mulo .. | .pow .. | .quo .. | .rem ..
  | .udivrem .. | .shl .. | .shr .. | .sqrt .. => false

/-- The commands that write V (10_state.md R27). -/
def writesV : Instr → Bool
  | .addo .. | .subo .. | .mulo .. | .wrflags _ => true
  | .nop | .adc64 .. | .sbb64 .. | .mulw64 .. | .madc64 .. | .mov .. | .clr _ | .one _ | .all1 _ | .lds64 ..
  | .ldu64 .. | .neg .. | .add .. | .sub .. | .cmp .. | .mul .. | .pow .. | .quo .. | .rem ..
  | .udivrem .. | .shl .. | .shr .. | .sqrt .. => false

/-- The operand condition under which a legal command faults, and its code (60_exceptions.md R200): a zero divisor for
QUO, REM and UDIVREM, a set bit 255 for SQRT; no other command has one (R201). -/
def faultCondition (i : Instr) (s : State) : FaultCode :=
  match i with
  | .quo _ _ rs2 | .rem _ _ rs2 | .udivrem _ _ _ rs2 => if s.reg rs2 = 0 then .zeroDivision else .none
  | .sqrt _ rs1 => if (s.reg rs1).getLsbD 255 then .negativeArgument else .none
  | .nop | .adc64 .. | .sbb64 .. | .mulw64 .. | .madc64 .. | .mov .. | .clr _ | .one _ | .all1 _ | .lds64 ..
  | .ldu64 .. | .wrflags _ | .neg .. | .add .. | .sub .. | .addo .. | .subo .. | .cmp .. | .mul .. | .mulo ..
  | .pow .. | .shl .. | .shr .. => .none

/-! ## Illegal packets, written out from R66 and R62's tables by opcode number -/

/-- "`opc` is not in the table of R65": the ranges R66 lists. -/
def UndefinedOpcode (o : Nat) : Prop :=
  (0x05 ≤ o ∧ o ≤ 0x0F) ∨ (0x17 ≤ o ∧ o ≤ 0x1F) ∨ (0x26 ≤ o ∧ o ≤ 0x2F) ∨ (0x33 ≤ o ∧ o ≤ 0x3F) ∨
  (0x43 ≤ o ∧ o ≤ 0x4F) ∨ (0x52 ≤ o ∧ o ≤ 0x5F) ∨ (0x61 ≤ o ∧ o ≤ 0xFF)

/-- A packet is illegal when any of the conditions of R66 holds: an undefined opcode, `hdr[31:24] ≠ 0`, a nonzero
register field or a nonzero immediate bit its format does not use (R62: NOP and WRFLAGS use no `rd`; only formats R2,
R3, R4 use `rs1`; only R3, R4 use `rs2`; only MADC64 and UDIVREM use `rs3`; LDS64 and LDU64 use all of `imm`, WRFLAGS
`imm[1:0]`). -/
def IllegalPacket (p : Packet) : Prop :=
  let o := p.hdr.toNat % 2 ^ 8
  UndefinedOpcode o ∨ p.hdr.toNat / 2 ^ 24 ≠ 0 ∨
  (o ∈ [0x00, 0x16] ∧ p.hdr.toNat / 2 ^ 8 % 2 ^ 4 ≠ 0) ∨
  (o ∈ [0x00, 0x11, 0x12, 0x13, 0x14, 0x15, 0x16] ∧ p.hdr.toNat / 2 ^ 12 % 2 ^ 4 ≠ 0) ∨
  (o ∈ [0x00, 0x10, 0x11, 0x12, 0x13, 0x14, 0x15, 0x16, 0x20, 0x60] ∧ p.hdr.toNat / 2 ^ 16 % 2 ^ 4 ≠ 0) ∨
  (o ∉ [0x04, 0x42] ∧ p.hdr.toNat / 2 ^ 20 % 2 ^ 4 ≠ 0) ∨
  (o ∉ [0x14, 0x15, 0x16] ∧ p.imm ≠ 0) ∨ (o = 0x16 ∧ p.imm.toNat / 4 ≠ 0)

/-! ## Bytes and runs of commands -/

/-- The value of bytes, the first the most significant (20_memory.md R42). -/
def bytesValue : List Byte → Nat
  | [] => 0
  | b :: rest => b.toNat * 2 ^ (8 * rest.length) + bytesValue rest

/-- Commands executed one after another (60_exceptions.md R220). -/
def execAll : List Instr → State → Host.Outcome State Fault Refusal
  | [], s => .next s
  | i :: rest, s =>
    match exec i s with
    | .next t => execAll rest t
    | .fault f => .fault f
    | .refused r => .refused r

/-! ## The invariant of the block -/

/-- FCMD is a header that can raise the fault recorded in FAULT (60_exceptions.md R200, R203): for ZERO_DIVISION and
NEGATIVE_ARGUMENT a packet of that header decodes to a command that raises it; for ILLEGAL_COMMAND some packet of that
header is illegal, which no header of LDS64 or LDU64 that meets its mask is (30_encoding.md R66); for NONE it is 0. -/
def FaultHasCause (s : State) : Prop :=
  match s.fault with
  | .none => s.fcmd = 0
  | .zeroDivision =>
    (∃ rd rs1 rs2, decode ⟨s.fcmd, 0⟩ = .command (.quo rd rs1 rs2)) ∨
    (∃ rd rs1 rs2, decode ⟨s.fcmd, 0⟩ = .command (.rem rd rs1 rs2)) ∨
    (∃ rd rd2 rs1 rs2, decode ⟨s.fcmd, 0⟩ = .command (.udivrem rd rd2 rs1 rs2))
  | .negativeArgument => ∃ rd rs1, decode ⟨s.fcmd, 0⟩ = .command (.sqrt rd rs1)
  | .illegalCommand => ∃ imm why, decode ⟨s.fcmd, imm⟩ = .illegal why

/-- What holds of the block between any two steps: no command is in progress while halted (R205), and FCMD is 0 while
FAULT = 0 and otherwise a header that can raise that fault (10_state.md R29, R31). -/
def Inv (s : State) : Prop := (s.busy = true → s.halted = false) ∧ FaultHasCause s

/-! ## Runs -/

/-- The end of a run: the host has no further command to offer and BUSY = 0, or HALTED = 1 (R224). -/
def runEnded (s : State) : Bool :=
  s.halted || (!s.busy && s.offered.isNone && s.script.all fun a => !offersPacket a)

/-- A run that ends with HALTED = 1 is a faulted run (R224). -/
def faultedRun (s : State) : Bool := runEnded s && s.halted

/-- The observable end state: the 16 registers, C, V, FAULT and FCMD (R224). -/
structure Observation where
  regs : Vector Word 16
  c : Bool
  v : Bool
  fault : FaultCode
  fcmd : BitVec 32
  deriving DecidableEq, Repr

/-- What can be observed of a state (R224). -/
def observe (s : State) : Observation :=
  { regs := s.regs, c := s.c, v := s.v, fault := s.fault, fcmd := s.fcmd }

/-! ## Whose move the next step is (DESIGN CHOICE, logs 1 to 3 and 24) -/

/-- The next step performs the host's interaction `a`: it is the next one the host has to make, the port can take it, and
it is the host's turn or the core has no move. -/
def HostTurn (s : State) (a : HostAction) (rest : List HostAction) : Prop :=
  s.script = a :: rest ∧ (offersPacket a = true → s.offered = none) ∧
  (s.turns.head? = some .host ∨ coreMove s = none)

/-- The next step executes the accepted packet `p`: it is in progress, the core is not halted, and it is not the host's
turn or the host has no move. -/
def CoreTurn (s : State) (p : Packet) : Prop :=
  s.inFlight = some p ∧ s.fault = .none ∧ (s.turns.head? ≠ some .host ∨ hostMove s = none)

/-- The next step accepts the waiting packet `p`: the port is free, the core is not halted, and it is not the host's turn
or the host has no move. -/
def AcceptTurn (s : State) (p : Packet) : Prop :=
  s.offered = some p ∧ s.inFlight = none ∧ s.fault = .none ∧ (s.turns.head? ≠ some .host ∨ hostMove s = none)

/-- The next step performs a reset (70_reset_and_hazards.md R230). -/
def ResetTurn (s : State) : Prop := ∃ keep rest, HostTurn s (.reset keep) rest

/-! ## What the assembler is given (30_encoding.md R65, R69) -/

/-- The mnemonic of a command, lower-case (R65, R69). -/
def asmName : Instr → String
  | .nop => "nop"
  | .adc64 .. => "adc64"
  | .sbb64 .. => "sbb64"
  | .mulw64 .. => "mulw64"
  | .madc64 .. => "madc64"
  | .mov .. => "mov"
  | .clr _ => "clr"
  | .one _ => "one"
  | .all1 _ => "all1"
  | .lds64 .. => "lds64"
  | .ldu64 .. => "ldu64"
  | .wrflags _ => "wrflags"
  | .neg .. => "neg"
  | .add .. => "add"
  | .sub .. => "sub"
  | .addo .. => "addo"
  | .subo .. => "subo"
  | .cmp .. => "cmp"
  | .mul .. => "mul"
  | .mulo .. => "mulo"
  | .pow .. => "pow"
  | .quo .. => "quo"
  | .rem .. => "rem"
  | .udivrem .. => "udivrem"
  | .shl .. => "shl"
  | .shr .. => "shr"
  | .sqrt .. => "sqrt"

/-- The operands of a command as they are written, in the order of its format: LDS64's immediate signed, LDU64's and
WRFLAGS' unsigned (R69). -/
def asmOperands : Instr → List AsmOperand
  | .nop => []
  | .clr rd | .one rd | .all1 rd => [.reg rd.val]
  | .mov rd rs1 | .neg rd rs1 | .sqrt rd rs1 => [.reg rd.val, .reg rs1.val]
  | .adc64 rd rs1 rs2 | .sbb64 rd rs1 rs2 | .mulw64 rd rs1 rs2 | .add rd rs1 rs2 | .sub rd rs1 rs2
  | .addo rd rs1 rs2 | .subo rd rs1 rs2 | .cmp rd rs1 rs2 | .mul rd rs1 rs2 | .mulo rd rs1 rs2
  | .pow rd rs1 rs2 | .quo rd rs1 rs2 | .rem rd rs1 rs2 | .shl rd rs1 rs2 | .shr rd rs1 rs2 =>
    [.reg rd.val, .reg rs1.val, .reg rs2.val]
  | .madc64 rd rs1 rs2 rs3 => [.reg rd.val, .reg rs1.val, .reg rs2.val, .reg rs3.val]
  | .udivrem rd rd2 rs1 rs2 => [.reg rd.val, .reg rd2.val, .reg rs1.val, .reg rs2.val]
  | .lds64 rd imm => [.reg rd.val, .imm imm.toInt]
  | .ldu64 rd imm => [.reg rd.val, .imm imm.toNat]
  | .wrflags imm => [.imm imm.toNat]

/-- The value of decimal digits (R69). -/
def decimalValue (cs : List Char) : Nat := cs.foldl (fun acc ch => 10 * acc + (ch.toNat - 48)) 0

/-- The text of operands: fields separated by a comma and a blank (R69). -/
def joinFields : List (List Char) → List Char
  | [] => []
  | [f] => f
  | f :: rest => f ++ [',', ' '] ++ joinFields rest

end Sys2Proof.Machine
end

