-- ==== Sys2Proof/Certificates/Slice0/Obligations.lean ====
section
/-! DEFINITION. The statements for the provers, each from the numbered rules of the spec. `s.reg r` is `x[r]`; `toNat` and
`toInt` are the spec's `uval` and `sval` (00_scope.md R9). -/

open Sys2Proof Sys2Proof.Machine

/-! ## Encoding (30_encoding.md) -/

/-- Every command with an encoding is read back from its packet with every operand (R60, R62, R65, R68). -/
def Obligations.DecodeOfEncode : Prop :=
  ∀ i : Instr, i.WellFormed = true → decode (encode i) = .command i

/-- A packet the decoder takes is the encoding of the command it yields: each command has exactly one packet
(R65, R66, R68). -/
def Obligations.EncodeOfDecode : Prop :=
  ∀ (p : Packet) (i : Instr), decode p = .command i → i.WellFormed = true ∧ encode i = p

/-- Once the opcode has selected a command, the packet is legal exactly when `hdr AND mask = opc` with the mask of the
format and no immediate bit the format requires to be 0 is set (R62, R68). -/
def Obligations.LegalPacketsMeetTheirMask : Prop :=
  ∀ (p : Packet) (i : Instr), selectCommand p = some i →
    (decode p = .command i ↔
      p.hdr &&& i.format.headerMask = BitVec.ofNat 32 i.opcode ∧ p.imm &&& i.format.immMask = 0)

/-- A packet is rejected exactly under the conditions of R66, and executing such a packet takes the fault
ILLEGAL_COMMAND with nothing read or written: the state after it is fixed by the packet's header alone. -/
def Obligations.IllegalPacketsFault : Prop :=
  (∀ p : Packet, (∃ why, decode p = .illegal why) ↔ IllegalPacket p) ∧
  (∀ (s : State) (p : Packet), CoreTurn s p → IllegalPacket p →
    ∃ t, step s = .next t ∧ FaultedPrecisely .illegalCommand p.hdr s.nextTurn t)

/-- The worked encodings of R71, read and written. -/
def Obligations.WorkedEncodings : Prop :=
  (decode ⟨0x00021321, 0⟩ = .command (.add 3 1 2) ∧ encode (.add 3 1 2) = ⟨0x00021321, 0⟩) ∧
  (decode ⟨0x00321404, 0⟩ = .command (.madc64 4 1 2 3) ∧ encode (.madc64 4 1 2 3) = ⟨0x00321404, 0⟩) ∧
  (decode ⟨0x00621542, 0⟩ = .command (.udivrem 5 6 1 2) ∧ encode (.udivrem 5 6 1 2) = ⟨0x00621542, 0⟩) ∧
  (decode ⟨0x00000114, 0xFFFFFFFFFFFFFFF9⟩ = .command (.lds64 1 (-7)) ∧
    encode (.lds64 1 (-7)) = ⟨0x00000114, 0xFFFFFFFFFFFFFFF9⟩) ∧
  (decode ⟨0x00000215, 0x00000000000000FF⟩ = .command (.ldu64 2 255) ∧
    encode (.ldu64 2 255) = ⟨0x00000215, 0x00000000000000FF⟩) ∧
  (decode ⟨0x00000016, 1⟩ = .command (.wrflags 1) ∧ encode (.wrflags 1) = ⟨0x00000016, 1⟩) ∧
  (decode ⟨0x00000000, 0⟩ = .command .nop ∧ encode .nop = ⟨0x00000000, 0⟩) ∧
  (∃ why, decode ⟨0x01000021, 0⟩ = .illegal why)

/-- A packet is 96 bits with `P[31:0] = hdr` and `P[95:32] = imm`; over a 32-bit bus it is the words `hdr`, `imm[31:0]`,
`imm[63:32]` in that order, and fewer than three words are no packet (R61). In a step of the host's: the three words are
accepted like the packet as one unit where the port is free and wait where it is not, and with fewer than three words the
port takes nothing. That the words come in one interaction is the model's (DESIGN CHOICE, log 18). -/
def Obligations.PacketOverBusWords : Prop :=
  (∀ p : Packet, (packetToBits p).extractLsb' 0 32 = p.hdr ∧ (packetToBits p).extractLsb' 32 64 = p.imm ∧
    packetOfBits (packetToBits p) = p) ∧
  (∀ p : Packet, packetOfBusWords [p.hdr, p.imm.extractLsb' 0 32, p.imm.extractLsb' 32 32] = some p) ∧
  (∀ ws : List (BitVec 32), ws.length < 3 → packetOfBusWords ws = none) ∧
  (∀ (s : State) (p : Packet) (rest : List HostAction),
    HostTurn s (.offerWords [p.hdr, p.imm.extractLsb' 0 32, p.imm.extractLsb' 32 32]) rest →
    (s.busy = false → s.halted = false →
      ∃ t, step s = .next t ∧ t.inFlight = some p ∧ t.offered = none ∧ observe t = observe s) ∧
    (s.busy = true ∨ s.halted = true →
      ∃ t, step s = .next t ∧ t.inFlight = s.inFlight ∧ t.offered = some p ∧ observe t = observe s)) ∧
  (∀ (s : State) (ws : List (BitVec 32)) (rest : List HostAction), HostTurn s (.offerWords ws) rest → ws.length < 3 →
    ∃ t, step s = .next t ∧ t.inFlight = s.inFlight ∧ t.offered = s.offered ∧ t.reply = none ∧ observe t = observe s)

/-! ## Steps, the command port, the halted state, reset (60_exceptions.md, 70_reset_and_hazards.md) -/

/-- When the accepted packet decodes to `i`, the core's step is `exec i`, with one turn used up and nothing else
around it (R221). -/
def Obligations.StepExecutesAcceptedCommand : Prop :=
  ∀ (s : State) (p : Packet) (i : Instr), CoreTurn s p → decode p = .command i → step s = exec i s.nextTurn

/-- An accepted packet, legal or not, completes or faults in one step of the core, which ends with BUSY = 0 and the
`done` event (R204, R221, R222). -/
def Obligations.AcceptedPacketFinishes : Prop :=
  ∀ (s : State) (p : Packet), CoreTurn s p →
    ∃ t, step s = .next t ∧ t.busy = false ∧ t.reply = some .done ∧ t.offered = s.offered ∧ t.script = s.script

/-- A step refuses nothing, and it stops exactly when neither agent can move: with `halted` while FAULT ≠ 0, else with
`idle`, the end of a run (R205, R224). The two names are the model's (DESIGN CHOICE, logs 2 and 7). -/
def Obligations.StepStopsOnlyWhenNobodyCanMove : Prop :=
  ∀ s : State, (∀ r, step s ≠ .refused r) ∧
    (step s = .fault .halted ↔ coreMove s = none ∧ hostMove s = none ∧ s.fault ≠ .none) ∧
    (step s = .fault .idle ↔ coreMove s = none ∧ hostMove s = none ∧ s.fault = .none)

/-- R220: a packet offered while BUSY = 0 and HALTED = 0 is accepted, latched, and BUSY is 1; offered while BUSY = 1 or
HALTED = 1 it waits; a waiting packet is accepted once the port is free; and while a command is in progress no step puts
another packet in its place. -/
def Obligations.PortTakesOnePacketAtATime : Prop :=
  (∀ (s : State) (p : Packet) (rest : List HostAction), HostTurn s (.offer p) rest →
    s.busy = false → s.halted = false →
    ∃ t, step s = .next t ∧ t.inFlight = some p ∧ t.busy = true ∧ observe t = observe s) ∧
  (∀ (s : State) (p : Packet) (rest : List HostAction), HostTurn s (.offer p) rest →
    (s.busy = true ∨ s.halted = true) →
    ∃ t, step s = .next t ∧ t.inFlight = s.inFlight ∧ t.offered = some p ∧ observe t = observe s) ∧
  (∀ (s : State) (p : Packet), AcceptTurn s p →
    ∃ t, step s = .next t ∧ t.inFlight = some p ∧ t.offered = none ∧ observe t = observe s) ∧
  (∀ (s t : State) (p : Packet), s.inFlight = some p → step s = .next t →
    t.inFlight = some p ∨ t.inFlight = none)

/-- R205: while HALTED = 1 a packet offered is left unaccepted and unanswered and the core takes no step, so with no host
interaction left the machine is stuck; window accesses and control reads still work. -/
def Obligations.HaltedCoreTakesNoStep : Prop :=
  ∀ s : State, s.halted = true →
    coreMove s = none ∧
    (s.script = [] → step s = .fault .halted) ∧
    (∀ p rest, HostTurn s (.offer p) rest →
      ∃ t, step s = .next t ∧ t.inFlight = s.inFlight ∧ t.offered = some p ∧ t.reply = none ∧ observe t = observe s) ∧
    (∀ a n rest, HostTurn s (.windowRead a n) rest → s.busy = false →
      (n = 1 ∨ n = 8 ∨ n = 32) → a < 512 → a % n = 0 →
      ∃ t, step s = .next t ∧ t.reply = some (.windowRead .ok (s.windowBytes a n))) ∧
    (∀ a data rest, HostTurn s (.windowWrite a data) rest → s.busy = false →
      (data.length = 1 ∨ data.length = 8 ∨ data.length = 32) → a < 512 → a % data.length = 0 →
      ∃ t, step s = .next t ∧ t.reply = some (.windowWrite .ok) ∧ t.regs = (s.setWindowBytes a data).regs) ∧
    (∀ rest, HostTurn s (.controlRead 0) rest →
      ∃ t, step s = .next t ∧ t.reply = some (.controlRead .ok s.statusWord)) ∧
    (∀ rest, HostTurn s (.controlRead 1) rest →
      ∃ t, step s = .next t ∧ t.reply = some (.controlRead .ok s.fcmd))

/-- FAULT, once nonzero, and FCMD stay unchanged, and the flags and the packet in progress with them, through every step
that does not perform a reset (R31, R205, R206). -/
def Obligations.FaultStaysUntilReset : Prop :=
  ∀ s t : State, s.fault ≠ .none → step s = .next t → ¬ ResetTurn s →
    t.fault = s.fault ∧ t.fcmd = s.fcmd ∧ t.c = s.c ∧ t.v = s.v ∧ t.inFlight = s.inFlight

/-- R35: the state after reset. -/
def Obligations.ResetState : Prop :=
  (∀ r, State.reset.reg r = 0) ∧ State.reset.c = false ∧ State.reset.v = false ∧ State.reset.busy = false ∧
  State.reset.fault = .none ∧ State.reset.halted = false ∧ State.reset.fcmd = 0 ∧ State.reset.inFlight = none

/-- R230: reset may come at any time, BUSY or halted or neither, and sets every piece of the block's state to its reset
value; a command in progress is abandoned, a waiting packet is not accepted. -/
def Obligations.ResetAtAnyTime : Prop :=
  ∀ (s : State) (keep : Bool) (rest : List HostAction), HostTurn s (.reset keep) rest →
    ∃ t, step s = .next t ∧ observe t = observe State.reset ∧ t.busy = false ∧ t.inFlight = none ∧ t.script = rest

/-- No command is in progress while halted, FCMD is 0 while FAULT = 0, and otherwise FCMD is a header that can raise that
fault: for ZERO_DIVISION one of QUO, REM or UDIVREM, for NEGATIVE_ARGUMENT one of SQRT, for ILLEGAL_COMMAND one that some
immediate makes illegal. Every step keeps this (R29, R31, R66, R200, R203, R205). -/
def Obligations.EveryStepKeepsTheBlockConsistent : Prop :=
  ∀ s t : State, Inv s → step s = .next t → Inv t

/-- The same holds after reset (R35). -/
def Obligations.ResetIsConsistent : Prop := Inv State.reset

/-! ## What commands may change (10_state.md, 60_exceptions.md) -/

/-- Which legal command faults, with which code, and what a fault leaves: FAULT and FCMD take the code and the command's
header, no register and no flag changes (R200, R201, R202, R203, R207). -/
def Obligations.CommandsFaultExactlyWhenSpecified : Prop :=
  ∀ (i : Instr) (s : State),
    (faultCondition i s ≠ .none → ∃ t, exec i s = .next t ∧ FaultedPrecisely (faultCondition i s) i.header s t) ∧
    (faultCondition i s = .none → ∃ t, exec i s = .next t ∧ Completed s t)

/-- A zero divisor makes QUO, REM and UDIVREM fault with ZERO_DIVISION, whatever the dividend; FCMD is the header
`opc + rd·2^8 + rs1·2^12 + rs2·2^16 + rs3·2^20` (R60, R140, R141, R142, R200). -/
def Obligations.ZeroDivisorFaults : Prop :=
  ∀ (rd rd2 rs1 rs2 : Reg) (s : State), s.reg rs2 = 0 →
    (∃ t, exec (.quo rd rs1 rs2) s = .next t ∧
      FaultedPrecisely .zeroDivision
        (BitVec.ofNat 32 (0x40 + rd.val * 0x100 + rs1.val * 0x1000 + rs2.val * 0x10000)) s t) ∧
    (∃ t, exec (.rem rd rs1 rs2) s = .next t ∧
      FaultedPrecisely .zeroDivision
        (BitVec.ofNat 32 (0x41 + rd.val * 0x100 + rs1.val * 0x1000 + rs2.val * 0x10000)) s t) ∧
    (∃ t, exec (.udivrem rd rd2 rs1 rs2) s = .next t ∧
      FaultedPrecisely .zeroDivision
        (BitVec.ofNat 32 (0x42 + rd.val * 0x100 + rs1.val * 0x1000 + rs2.val * 0x10000 + rd2.val * 0x100000)) s t)

/-- A negative argument makes SQRT fault with NEGATIVE_ARGUMENT (R60, R160, R200). -/
def Obligations.NegativeRootFaults : Prop :=
  ∀ (rd rs1 : Reg) (s : State), (s.reg rs1).toInt < 0 →
    ∃ t, exec (.sqrt rd rs1) s = .next t ∧
      FaultedPrecisely .negativeArgument (BitVec.ofNat 32 (0x60 + rd.val * 0x100 + rs1.val * 0x1000)) s t

/-- R23: a command writes only the register named by its `rd` field, and UDIVREM the one named by `rs3` too. -/
def Obligations.CommandsWriteOnlyTheirDestinations : Prop :=
  ∀ (i : Instr) (s t : State), exec i s = .next t → ∀ r, r ∉ destinations i → t.reg r = s.reg r

/-- The same through the host window: a command changes no byte outside its destination registers (R23, R40, R41). -/
def Obligations.CommandsLeaveOtherWindowBytes : Prop :=
  ∀ (i : Instr) (s t : State), exec i s = .next t →
    ∀ a, a < 512 → (∀ r ∈ destinations i, a < 32 * r.val ∨ 32 * r.val + 32 ≤ a) →
      t.windowByte a = s.windowByte a

/-- A step changes C only by executing ADC64, SBB64 or WRFLAGS, and V only by executing ADDO, SUBO, MULO or WRFLAGS, or
either by performing a reset (R26, R27, R230). -/
def Obligations.FlagsChangeOnlyByListedCommands : Prop :=
  ∀ s t : State, step s = .next t →
    (t.c ≠ s.c → (∃ p i, CoreTurn s p ∧ decode p = .command i ∧ writesC i = true) ∨ ResetTurn s) ∧
    (t.v ≠ s.v → (∃ p i, CoreTurn s p ∧ decode p = .command i ∧ writesV i = true) ∨ ResetTurn s)

/-- A step changes a register only as a destination of the command it executes, at its completion; as the register that
the address of the window write it performs lies in, answered OK; or by performing a reset (R23, R32, R41, R43, R230). -/
def Obligations.RegistersChangeOnlyByThreeCauses : Prop :=
  ∀ (s t : State) (r : Reg), step s = .next t → t.reg r ≠ s.reg r →
    (∃ p i, CoreTurn s p ∧ decode p = .command i ∧ r ∈ destinations i ∧ t.busy = false) ∨
    (∃ a data rest, HostTurn s (.windowWrite a data) rest ∧ s.busy = false ∧ a < 512 ∧ r = windowReg a ∧
      t.reply = some (.windowWrite .ok)) ∨
    ResetTurn s

/-- No intermediate value of a command is visible: while BUSY stays 1, nothing observable changes (R32, R48). -/
def Obligations.NothingChangesWhileBusy : Prop :=
  ∀ s t : State, s.busy = true → step s = .next t → t.busy = true → observe t = observe s

/-- R221: the outcome is a function of the packet, the 16 registers and C alone; V is either computed from them or kept. -/
def Obligations.OutcomeDependsOnRegistersAndC : Prop :=
  ∀ (p : Packet) (s₁ s₂ t₁ t₂ : State), s₁.regs = s₂.regs → s₁.c = s₂.c → s₁.fault = .none → s₂.fault = .none →
    executePacket p s₁ = .next t₁ → executePacket p s₂ = .next t₂ →
    t₁.regs = t₂.regs ∧ t₁.c = t₂.c ∧ t₁.fault = t₂.fault ∧ (t₁.fault ≠ .none → t₁.fcmd = t₂.fcmd) ∧
    (t₁.v = t₂.v ∨ (t₁.v = s₁.v ∧ t₂.v = s₂.v))

/-! ## Limb primitives (40_limb_primitives.md) -/

/-- R104: all four primitives are exact; ADC64 and SBB64 wrap modulo 2^64 with the lost bit in C, MULW64 and MADC64 lose
nothing. Operands are limbs 0 (`x mod 2^64`), MADC64's `acc` and `carryIn` limbs 0 and 1 of `x[rs3]`; every result is
zero-extended and no other register or flag changes. -/
def Obligations.LimbPrimitivesAreExact : Prop :=
  ∀ (rd rs1 rs2 rs3 : Reg) (s : State),
    (∃ t, exec (.adc64 rd rs1 rs2) s = .next t ∧ Completed s t ∧ SameRegsBut rd s t ∧ t.v = s.v ∧
      (t.reg rd).toNat < 2 ^ 64 ∧
      (t.reg rd).toNat + t.c.toNat * 2 ^ 64 =
        (s.reg rs1).toNat % 2 ^ 64 + (s.reg rs2).toNat % 2 ^ 64 + s.c.toNat) ∧
    (∃ t, exec (.sbb64 rd rs1 rs2) s = .next t ∧ Completed s t ∧ SameRegsBut rd s t ∧ t.v = s.v ∧
      (t.reg rd).toNat < 2 ^ 64 ∧
      ((t.reg rd).toNat : Int) - t.c.toNat * 2 ^ 64 =
        ((s.reg rs1).toNat % 2 ^ 64 : Nat) - ((s.reg rs2).toNat % 2 ^ 64 : Nat) - (s.c.toNat : Int)) ∧
    (∃ t, exec (.mulw64 rd rs1 rs2) s = .next t ∧ Completed s t ∧ SameRegsBut rd s t ∧ SameFlags s t ∧
      (t.reg rd).toNat = (s.reg rs1).toNat % 2 ^ 64 * ((s.reg rs2).toNat % 2 ^ 64)) ∧
    (∃ t, exec (.madc64 rd rs1 rs2 rs3) s = .next t ∧ Completed s t ∧ SameRegsBut rd s t ∧ SameFlags s t ∧
      (t.reg rd).toNat = (s.reg rs1).toNat % 2 ^ 64 * ((s.reg rs2).toNat % 2 ^ 64) +
        (s.reg rs3).toNat % 2 ^ 64 + (s.reg rs3).toNat / 2 ^ 64 % 2 ^ 64)

/-! ## Register load and flag commands (41_register_load.md) -/

/-- NOP leaves every register and flag unchanged and completes like any command; the only legal packet with opcode 0x00
is `0x00000000 / 0` (R110). -/
def Obligations.NopHasNoEffect : Prop :=
  (∀ s : State, ∃ t, exec .nop s = .next t ∧ Completed s t ∧ (∀ r, t.reg r = s.reg r) ∧ SameFlags s t) ∧
  (∀ (p : Packet) (i : Instr), p.hdr.toNat % 2 ^ 8 = 0 → (decode p = .command i ↔ p = ⟨0, 0⟩ ∧ i = .nop))

/-- MOV copies, CLR writes 0, ONE writes 1, ALL1 writes the pattern of −1, and nothing else changes
(R111, R112, R113, R114). -/
def Obligations.RegisterLoads : Prop :=
  ∀ (rd rs1 : Reg) (s : State),
    (∃ t, exec (.mov rd rs1) s = .next t ∧ WroteOnly rd (s.reg rs1) s t) ∧
    (∃ t, exec (.clr rd) s = .next t ∧ WroteOnly rd 0 s t) ∧
    (∃ t, exec (.one rd) s = .next t ∧ WroteOnly rd 1 s t) ∧
    (∃ t, exec (.all1 rd) s = .next t ∧ WroteOnly rd (BitVec.ofInt 256 (-1)) s t)

/-- LDS64 writes the value of the immediate read as signed, LDU64 as unsigned (R115, R116). -/
def Obligations.ImmediateLoadsKeepTheirValue : Prop :=
  ∀ (rd : Reg) (imm : BitVec 64) (s : State),
    (∃ t, exec (.lds64 rd imm) s = .next t ∧ WroteOnly rd (BitVec.ofInt 256 imm.toInt) s t ∧
      (t.reg rd).toInt = imm.toInt) ∧
    (∃ t, exec (.ldu64 rd imm) s = .next t ∧ WroteOnly rd (BitVec.ofNat 256 imm.toNat) s t ∧
      (t.reg rd).toInt = imm.toNat)

/-- WRFLAGS writes both flags, C from bit 0 and V from bit 1 of the immediate, and no register (R117). -/
def Obligations.WrflagsWritesBothFlags : Prop :=
  ∀ (imm : BitVec 64) (s : State),
    ∃ t, exec (.wrflags imm) s = .next t ∧ Completed s t ∧ (∀ r, t.reg r = s.reg r) ∧
      t.c = imm.getLsbD 0 ∧ t.v = imm.getLsbD 1

/-! ## Negation, addition, subtraction, compare (42_add_sub.md) -/

/-- ADD, SUB and NEG compute the signed sum, difference and negation modulo 2^256 and change no flag (R126 (a)). -/
def Obligations.NegAddSubAreSigned : Prop :=
  ∀ (rd rs1 rs2 : Reg) (s : State),
    (∃ t, exec (.add rd rs1 rs2) s = .next t ∧
      WroteOnly rd (BitVec.ofInt 256 ((s.reg rs1).toInt + (s.reg rs2).toInt)) s t) ∧
    (∃ t, exec (.sub rd rs1 rs2) s = .next t ∧
      WroteOnly rd (BitVec.ofInt 256 ((s.reg rs1).toInt - (s.reg rs2).toInt)) s t) ∧
    (∃ t, exec (.neg rd rs1) s = .next t ∧ WroteOnly rd (BitVec.ofInt 256 (-(s.reg rs1).toInt)) s t)

/-- ADDO writes ADD's result, and V is true signed overflow (R123, R126 (b)). -/
def Obligations.AddoFlagsSignedOverflow : Prop :=
  ∀ (rd rs1 rs2 : Reg) (s : State),
    ∃ t, exec (.addo rd rs1 rs2) s = .next t ∧ Completed s t ∧ SameRegsBut rd s t ∧ t.c = s.c ∧
      t.reg rd = BitVec.ofInt 256 ((s.reg rs1).toInt + (s.reg rs2).toInt) ∧
      (t.v = true ↔ (s.reg rs1).toInt + (s.reg rs2).toInt < -2 ^ 255 ∨
        2 ^ 255 ≤ (s.reg rs1).toInt + (s.reg rs2).toInt)

/-- SUBO writes SUB's result, and V is true signed overflow (R124, R126 (c)). -/
def Obligations.SuboFlagsSignedOverflow : Prop :=
  ∀ (rd rs1 rs2 : Reg) (s : State),
    ∃ t, exec (.subo rd rs1 rs2) s = .next t ∧ Completed s t ∧ SameRegsBut rd s t ∧ t.c = s.c ∧
      t.reg rd = BitVec.ofInt 256 ((s.reg rs1).toInt - (s.reg rs2).toInt) ∧
      (t.v = true ↔ (s.reg rs1).toInt - (s.reg rs2).toInt < -2 ^ 255 ∨
        2 ^ 255 ≤ (s.reg rs1).toInt - (s.reg rs2).toInt)

/-- CMP writes the sign of the signed difference, −1, 0 or 1, and no flag (R125, R126 (d)). -/
def Obligations.CmpIsTheSignedOrder : Prop :=
  ∀ (rd rs1 rs2 : Reg) (s : State),
    ∃ t, exec (.cmp rd rs1 rs2) s = .next t ∧
      WroteOnly rd (BitVec.ofInt 256 ((s.reg rs1).toInt - (s.reg rs2).toInt).sign) s t

/-! ## Multiplication and exponentiation (43_multiply.md) -/

/-- MUL writes the signed product modulo 2^256 and no flag (R130, R133 (a)). -/
def Obligations.MulIsSigned : Prop :=
  ∀ (rd rs1 rs2 : Reg) (s : State),
    ∃ t, exec (.mul rd rs1 rs2) s = .next t ∧
      WroteOnly rd (BitVec.ofInt 256 ((s.reg rs1).toInt * (s.reg rs2).toInt)) s t

/-- MULO writes MUL's result; V is 1 exactly when the true product lies outside `[−2^255, 2^255 − 1]` or equals `−2^255`
other than as `MinI256 · 1` or `1 · MinI256` (R131, R133 (b) and (c), 90_conflicts.md C2). -/
def Obligations.MuloFlagsLargeMagnitudes : Prop :=
  ∀ (rd rs1 rs2 : Reg) (s : State),
    ∃ t, exec (.mulo rd rs1 rs2) s = .next t ∧ Completed s t ∧ SameRegsBut rd s t ∧ t.c = s.c ∧
      t.reg rd = BitVec.ofInt 256 ((s.reg rs1).toInt * (s.reg rs2).toInt) ∧
      (t.v = true ↔
        (s.reg rs1).toInt * (s.reg rs2).toInt < -2 ^ 255 ∨ 2 ^ 255 ≤ (s.reg rs1).toInt * (s.reg rs2).toInt ∨
        ((s.reg rs1).toInt * (s.reg rs2).toInt = -2 ^ 255 ∧
          ¬((s.reg rs1).toInt = -2 ^ 255 ∧ (s.reg rs2).toInt = 1) ∧
          ¬((s.reg rs1).toInt = 1 ∧ (s.reg rs2).toInt = -2 ^ 255)))

/-- POW writes the power of the signed base to the unsigned exponent modulo 2^256, with `a^0 = 1`, and no flag
(R132, R133 (d)). -/
def Obligations.PowIsSignedPower : Prop :=
  ∀ (rd rs1 rs2 : Reg) (s : State),
    ∃ t, exec (.pow rd rs1 rs2) s = .next t ∧
      WroteOnly rd (BitVec.ofInt 256 ((s.reg rs1).toInt ^ (s.reg rs2).toNat)) s t

/-! ## Division (44_divide.md) -/

/-- For a nonzero divisor QUO writes the signed quotient truncated toward zero and REM the matching remainder, both
modulo 2^256 (R140, R141, R143). -/
def Obligations.QuoRemTruncate : Prop :=
  ∀ (rd rs1 rs2 : Reg) (s : State), s.reg rs2 ≠ 0 →
    (∃ t, exec (.quo rd rs1 rs2) s = .next t ∧
      WroteOnly rd (BitVec.ofInt 256 (Int.tdiv (s.reg rs1).toInt (s.reg rs2).toInt)) s t) ∧
    (∃ t, exec (.rem rd rs1 rs2) s = .next t ∧
      WroteOnly rd (BitVec.ofInt 256 (Int.tmod (s.reg rs1).toInt (s.reg rs2).toInt)) s t)

/-- For a nonzero divisor UDIVREM writes the unsigned remainder to `rd2` and, where `rd` is another register, the unsigned
quotient to `rd`; `dividend = quotient · divisor + remainder` with `remainder < divisor` (R142). -/
def Obligations.UdivremDividesUnsigned : Prop :=
  ∀ (rd rd2 rs1 rs2 : Reg) (s : State), s.reg rs2 ≠ 0 →
    ∃ t, exec (.udivrem rd rd2 rs1 rs2) s = .next t ∧ Completed s t ∧ SameFlags s t ∧
      (∀ r, r ≠ rd → r ≠ rd2 → t.reg r = s.reg r) ∧
      (t.reg rd2).toNat < (s.reg rs2).toNat ∧ (t.reg rd2).toNat = (s.reg rs1).toNat % (s.reg rs2).toNat ∧
      (rd ≠ rd2 → (s.reg rs1).toNat = (t.reg rd).toNat * (s.reg rs2).toNat + (t.reg rd2).toNat)

/-- `mul(quotient(x,y), y) + remainder(x,y) = x` for every nonzero `y` under wrapping multiplication and addition,
`MinI256 / −1` included, and the remainder is 0 or has the sign of `x` (R143 (d)). -/
def Obligations.TruncatingDivisionLaw : Prop :=
  ∀ x y : Word, y ≠ 0 →
    addWord (mulWord (quoWord x y) y) (remWord x y) = x ∧ (remWord x y = 0 ∨ sign (remWord x y) = sign x)

/-! ## Shifts and square root (45_shift.md, 46_sqrt.md) -/

/-- SHL writes `a · 2^n` modulo 2^256 for every 256-bit amount, and no flag (R150). -/
def Obligations.ShlMultipliesByPower : Prop :=
  ∀ (rd rs1 rs2 : Reg) (s : State),
    ∃ t, exec (.shl rd rs1 rs2) s = .next t ∧
      WroteOnly rd (BitVec.ofNat 256 ((s.reg rs1).toNat * 2 ^ (s.reg rs2).toNat)) s t

/-- SHR writes `floor(sval(a) / 2^min(n, 255))` for every 256-bit amount: an arithmetic shift, and no flag (R151). -/
def Obligations.ShrIsArithmetic : Prop :=
  ∀ (rd rs1 rs2 : Reg) (s : State),
    ∃ t, exec (.shr rd rs1 rs2) s = .next t ∧
      WroteOnly rd (BitVec.ofInt 256 (Int.fdiv (s.reg rs1).toInt (2 ^ min (s.reg rs2).toNat 255))) s t

/-- For an argument that is not negative SQRT writes the largest `r` with `r·r ≤ a`, and no flag (R160). -/
def Obligations.SqrtIsExact : Prop :=
  ∀ (rd rs1 : Reg) (s : State), 0 ≤ (s.reg rs1).toInt →
    ∃ t, exec (.sqrt rd rs1) s = .next t ∧ Completed s t ∧ SameRegsBut rd s t ∧ SameFlags s t ∧
      (t.reg rd).toNat * (t.reg rd).toNat ≤ (s.reg rs1).toNat ∧
      (s.reg rs1).toNat < ((t.reg rd).toNat + 1) * ((t.reg rd).toNat + 1)

/-! ## The datapath against the closed forms -/

/-- The 4-limb carry chain of R121 computes ADD's sum, and its last carry is the carry of the 256-bit sum. -/
def Obligations.CarryChainIsAdd : Prop :=
  ∀ a b : Word, addChain a b = (addWord a b, decide (2 ^ 256 ≤ a.toNat + b.toNat))

/-- The 4-limb borrow chain of R122 computes SUB's difference, its last borrow is `a < b` unsigned, and for operands of
equal sign its three outcomes are CMP's (R125, 90_conflicts.md C1). -/
def Obligations.BorrowChainIsSubAndCmp : Prop :=
  (∀ a b : Word, subChain a b = (subWord a b, decide (a.toNat < b.toNat))) ∧
  (∀ a b : Word, sign a = sign b → compareChain a b = compareWord a b)

/-- The 4×4 grid of R130 yields eight 64-bit limbs of the full product, and its low four limbs are MUL's result. -/
def Obligations.MultiplyGridIsProduct : Prop :=
  ∀ a b : Word, (mulGrid a b).length = 8 ∧ (∀ l ∈ mulGrid a b, l < 2 ^ 64) ∧
    limbsValue (mulGrid a b) = a.toNat * b.toNat ∧ limbsValue ((mulGrid a b).take 4) = (mulWord a b).toNat

/-- The Newton iteration of R161 returns the exact integer square root that SQRT writes (R160). R161 is informative, and
the spec marks its convergence as general knowledge (93_implementation_defined.md I32); R160 alone defines the result. -/
def Obligations.NewtonIterationIsExact : Prop :=
  ∀ v : Nat, v < 2 ^ 255 → newtonSqrt v = isqrt v

/-! ## Host window and control space (20_memory.md) -/

/-- R41 and R42: a host-window read that is not refused returns, lowest address first, byte `k` of `x[r]` as
`x[r][255−8k : 248−8k]`; so reading 32 bytes at `32r` gives `x[r]`, and 8 bytes at `32r + 8(3−j)` its limb `j`. -/
def Obligations.WindowReadIsBigEndian : Prop :=
  (∀ (s : State) (a n : Nat) (rest : List HostAction), HostTurn s (.windowRead a n) rest → s.busy = false →
    (n = 1 ∨ n = 8 ∨ n = 32) → a < 512 → a % n = 0 →
    ∃ t data, step s = .next t ∧ t.reply = some (.windowRead .ok data) ∧ observe t = observe s ∧ data.length = n ∧
      ∀ k (r : Reg), k < n → r.val = (a + k) / 32 →
        data[k]? = some ((s.reg r).extractLsb' (248 - 8 * ((a + k) % 32)) 8)) ∧
  (∀ (s : State) (r : Reg), bytesValue (s.windowBytes (32 * r.val) 32) = (s.reg r).toNat) ∧
  (∀ (s : State) (r : Reg) (j : Nat), j < 4 →
    bytesValue (s.windowBytes (32 * r.val + 8 * (3 - j)) 8) = (s.reg r).toNat / 2 ^ (64 * j) % 2 ^ 64)

/-- R43: a host-window write that is not refused sets exactly the bytes it names; every other byte of the window, the
flags and the status fields are unchanged, and 32 bytes at `32r` make `x[r]` their big-endian value. -/
def Obligations.WindowWriteSetsItsBytes : Prop :=
  ∀ (s : State) (a : Nat) (data : List Byte) (rest : List HostAction), HostTurn s (.windowWrite a data) rest →
    s.busy = false → (data.length = 1 ∨ data.length = 8 ∨ data.length = 32) → a < 512 → a % data.length = 0 →
    ∃ t, step s = .next t ∧ t.reply = some (.windowWrite .ok) ∧
      (∀ k, k < data.length → some (t.windowByte (a + k)) = data[k]?) ∧
      (∀ b, b < 512 → (b < a ∨ a + data.length ≤ b) → t.windowByte b = s.windowByte b) ∧
      t.c = s.c ∧ t.v = s.v ∧ t.fault = s.fault ∧ t.fcmd = s.fcmd ∧ t.inFlight = s.inFlight ∧
      (∀ r : Reg, a = 32 * r.val → data.length = 32 → (t.reg r).toNat = bytesValue data)

/-- Which host-window access is refused and how: ERR_SIZE before ERR_RANGE before ERR_ALIGN before ERR_BUSY; a refused
access changes nothing and a refused read returns zeros of its size (R45, R46, R47, R208). -/
def Obligations.WindowRefusalsInOrder : Prop :=
  (∀ (s : State) (a n : Nat) (rest : List HostAction), HostTurn s (.windowRead a n) rest →
    ∃ t r data, step s = .next t ∧ t.reply = some (.windowRead r data) ∧ t.inFlight = s.inFlight ∧ observe t = observe s ∧
      (r ≠ .ok → data = List.replicate n 0) ∧
      (r = .errSize ↔ n ≠ 1 ∧ n ≠ 8 ∧ n ≠ 32) ∧
      (r = .errRange ↔ (n = 1 ∨ n = 8 ∨ n = 32) ∧ 512 ≤ a) ∧
      (r = .errAlign ↔ (n = 1 ∨ n = 8 ∨ n = 32) ∧ a < 512 ∧ a % n ≠ 0) ∧
      (r = .errBusy ↔ (n = 1 ∨ n = 8 ∨ n = 32) ∧ a < 512 ∧ a % n = 0 ∧ s.busy = true) ∧
      (r = .ok ↔ (n = 1 ∨ n = 8 ∨ n = 32) ∧ a < 512 ∧ a % n = 0 ∧ s.busy = false)) ∧
  (∀ (s : State) (a : Nat) (data : List Byte) (rest : List HostAction), HostTurn s (.windowWrite a data) rest →
    ∃ t r, step s = .next t ∧ t.reply = some (.windowWrite r) ∧ t.inFlight = s.inFlight ∧
      (r ≠ .ok → observe t = observe s) ∧
      (r = .errSize ↔ data.length ≠ 1 ∧ data.length ≠ 8 ∧ data.length ≠ 32) ∧
      (r = .errRange ↔ (data.length = 1 ∨ data.length = 8 ∨ data.length = 32) ∧ 512 ≤ a) ∧
      (r = .errAlign ↔ (data.length = 1 ∨ data.length = 8 ∨ data.length = 32) ∧ a < 512 ∧ a % data.length ≠ 0) ∧
      (r = .errBusy ↔
        (data.length = 1 ∨ data.length = 8 ∨ data.length = 32) ∧ a < 512 ∧ a % data.length = 0 ∧ s.busy = true) ∧
      (r = .ok ↔
        (data.length = 1 ∨ data.length = 8 ∨ data.length = 32) ∧ a < 512 ∧ a % data.length = 0 ∧ s.busy = false))

/-- A control read at word 0 returns STATUS with its fields where R28 puts them, at word 1 FCMD, elsewhere ERR_RANGE; it is
allowed at all times and changes nothing (R28, R29, R48). -/
def Obligations.ControlReadShowsStatusAndFcmd : Prop :=
  ∀ (s : State) (a : Nat) (rest : List HostAction), HostTurn s (.controlRead a) rest →
    ∃ t r w, step s = .next t ∧ t.reply = some (.controlRead r w) ∧ t.inFlight = s.inFlight ∧ observe t = observe s ∧
      (a = 0 → r = .ok ∧ w.getLsbD 0 = s.c ∧ w.getLsbD 1 = s.v ∧ w.getLsbD 2 = s.busy ∧ w.getLsbD 3 = s.halted ∧
        w.toNat / 16 = (match s.fault with
          | .none => 0 | .zeroDivision => 1 | .negativeArgument => 2 | .illegalCommand => 3)) ∧
      (a = 1 → r = .ok ∧ w = s.fcmd) ∧
      (2 ≤ a → r = .errRange)

/-- R49: a control-space write is refused with ERR_RO and changes nothing. -/
def Obligations.ControlWriteIsRefused : Prop :=
  ∀ (s : State) (a : Nat) (x : BitVec 32) (rest : List HostAction), HostTurn s (.controlWrite a x) rest →
    ∃ t, step s = .next t ∧ t.reply = some (.controlWrite .errRo) ∧ observe t = observe s ∧ t.inFlight = s.inFlight ∧
      t.offered = s.offered

/-- R50: a read changes nothing of the block, and the same read again, with nothing between them, returns the same value and
leaves the block as it was. -/
def Obligations.ReadsAreIdempotent : Prop :=
  ∀ (s : State) (a : HostAction) (rest : List HostAction),
    ((∃ addr n, a = .windowRead addr n) ∨ (∃ addr, a = .controlRead addr)) → HostTurn s a (a :: rest) →
    ∃ t₁, step s = .next t₁ ∧ observe t₁ = observe s ∧ t₁.inFlight = s.inFlight ∧
      (HostTurn t₁ a rest →
        ∃ t₂, step t₁ = .next t₂ ∧ t₂.reply = t₁.reply ∧ observe t₂ = observe s ∧ t₂.inFlight = s.inFlight)

/-- A host read returns what the latest host write to those bytes gave (R53): a write answered OK and the read of the same
bytes after it. -/
def Obligations.ReadAfterWriteReturnsIt : Prop :=
  ∀ (s : State) (a : Nat) (data : List Byte) (rest : List HostAction),
    HostTurn s (.windowWrite a data) (.windowRead a data.length :: rest) →
    s.busy = false → (data.length = 1 ∨ data.length = 8 ∨ data.length = 32) → a < 512 → a % data.length = 0 →
    ∃ t₁, step s = .next t₁ ∧
      (HostTurn t₁ (.windowRead a data.length) rest →
        ∃ t₂, step t₁ = .next t₂ ∧ t₂.reply = some (.windowRead .ok data))

/-! ## Assembler (30_encoding.md R69, R70) -/

/-- The assembler answers exactly the commands R69 names: a register operand is `r0` to `r15` and any other number is
refused; an immediate is taken within its bounds, as its two's-complement pattern, and refused outside them; a mnemonic
and operands stand for a command exactly when they are that command's, in its format's order, LDS64's immediate signed,
LDU64's unsigned, WRFLAGS' 0 to 3; and every command of a line has an encoding (R66, R69). -/
def Obligations.AssembledCommandsHaveEncodings : Prop :=
  (∀ (n : Nat) (r : Reg), operandReg (.reg n) = some r ↔ r.val = n) ∧
  (∀ n : Nat, 16 ≤ n → operandReg (.reg n) = none) ∧ (∀ n : Int, operandReg (.imm n) = none) ∧
  (∀ (lo hi n : Int), lo ≤ n → n ≤ hi → operandImm lo hi (.imm n) = some (BitVec.ofInt 64 n)) ∧
  (∀ (lo hi n : Int), n < lo ∨ hi < n → operandImm lo hi (.imm n) = none) ∧
  (∀ (lo hi : Int) (n : Nat), operandImm lo hi (.reg n) = none) ∧
  (∀ (m : String) (ops : List AsmOperand) (i : Instr),
    assembleCommand m ops = some i ↔ i.WellFormed = true ∧ m = asmName i ∧ ops = asmOperands i) ∧
  (∀ (line : String) (is : List Instr), assembleLine line = some is → ∀ i ∈ is, i.WellFormed = true)

/-- The expansions of `ldmin` and `ldmax` leave MinI256 and MaxI256 in `rd`, 255 and 1 in `rt`, and are refused for
`rd = rt` (R70). -/
def Obligations.SentinelPseudosBuildTheirValue : Prop :=
  ∀ (rd rt : Reg) (s : State),
    (rd = rt → expandPseudo (.ldmin rd rt) = none ∧ expandPseudo (.ldmax rd rt) = none) ∧
    (rd ≠ rt →
      (∃ is t, expandPseudo (.ldmin rd rt) = some is ∧ execAll is s = .next t ∧
        (t.reg rd).toInt = -2 ^ 255 ∧ t.reg rt = 255 ∧ SameFlags s t ∧
        ∀ r, r ≠ rd → r ≠ rt → t.reg r = s.reg r) ∧
      (∃ is t, expandPseudo (.ldmax rd rt) = some is ∧ execAll is s = .next t ∧
        (t.reg rd).toInt = 2 ^ 255 - 1 ∧ t.reg rt = 1 ∧ SameFlags s t ∧
        ∀ r, r ≠ rd → r ≠ rt → t.reg r = s.reg r))

/-- A line is read as written: registers and decimal immediates, with or without `-`, have the value of their digits; and a
command's mnemonic in any case, a blank, and its operands separated by commas stand for that command, with or without a
comment after it; a mnemonic with operands that are no command's and no pseudo-instruction's is refused (R69). That a comma may be followed by a blank is the model's (DESIGN CHOICE, log 20). -/
def Obligations.AssemblerReadsItsText : Prop :=
  (∀ ds : List Char, ds ≠ [] → (∀ ch ∈ ds, 48 ≤ ch.toNat ∧ ch.toNat ≤ 57) →
    readOperand ('r' :: ds) = some (.reg (decimalValue ds)) ∧ readOperand ds = some (.imm (decimalValue ds)) ∧
    readOperand ('-' :: ds) = some (.imm (-(decimalValue ds : Int)))) ∧
  (∀ (i : Instr) (name : List Char) (fields : List (List Char)) (comment : List Char), i.WellFormed = true →
    name.map Char.toLower = (asmName i).toList → fields.map readOperand = (asmOperands i).map some →
    (∀ f ∈ fields, ∀ ch ∈ f, ch ∉ [' ', '\t', ',', ';']) →
    assembleLine (String.ofList (name ++ ' ' :: joinFields fields)) = some [i] ∧
    assembleLine (String.ofList (name ++ ' ' :: joinFields fields ++ ';' :: comment)) = some [i]) ∧
  (∀ (name : List Char) (fields : List (List Char)) (ops : List AsmOperand), name ≠ [] →
    (∀ ch ∈ name, ch ∉ [' ', '\t', ';']) → fields.map readOperand = ops.map some →
    (∀ f ∈ fields, ∀ ch ∈ f, ch ∉ [' ', '\t', ',', ';']) →
    (∀ i : Instr, i.WellFormed = true → ¬ (String.ofList (name.map Char.toLower) = asmName i ∧ ops = asmOperands i)) →
    readPseudo (String.ofList (name.map Char.toLower)) ops = none →
    assembleLine (String.ofList (name ++ ' ' :: joinFields fields)) = none)
end

