-- ==== Sys2Proof/Laws/Assembler.lean ====
section
/-! SUPPORT. The assembler's operand forms and its text operations, one lemma each (30_encoding.md R69). -/

namespace Sys2Proof.Machine

/-! ## Operand forms: which operand lists a format takes -/

theorem operands1_eq_some_iff (f : Reg → Instr) (ops : List AsmOperand) (i : Instr) :
    operands1 f ops = some i ↔ ∃ d rd, ops = [d] ∧ operandReg d = some rd ∧ f rd = i := by
  unfold operands1; split
  · rename_i d
    simp only [Option.bind_eq_bind, Option.bind_eq_some_iff, Option.pure_def, Option.some.injEq]
    constructor
    · rintro ⟨rd, h1, rfl⟩; exact ⟨d, rd, rfl, h1, rfl⟩
    · rintro ⟨_, rd, he, h1, rfl⟩; cases he; exact ⟨rd, h1, rfl⟩
  · rename_i h
    simp only [reduceCtorEq, false_iff]
    rintro ⟨d, _, he, -⟩; exact h d he

theorem operands2_eq_some_iff (f : Reg → Reg → Instr) (ops : List AsmOperand) (i : Instr) :
    operands2 f ops = some i ↔
      ∃ d a rd rs1, ops = [d, a] ∧ operandReg d = some rd ∧ operandReg a = some rs1 ∧ f rd rs1 = i := by
  unfold operands2; split
  · rename_i d a
    simp only [Option.bind_eq_bind, Option.bind_eq_some_iff, Option.pure_def, Option.some.injEq]
    constructor
    · rintro ⟨rd, h1, rs1, h2, rfl⟩; exact ⟨d, a, rd, rs1, rfl, h1, h2, rfl⟩
    · rintro ⟨_, _, rd, rs1, he, h1, h2, rfl⟩; cases he; exact ⟨rd, h1, rs1, h2, rfl⟩
  · rename_i h
    simp only [reduceCtorEq, false_iff]
    rintro ⟨d, a, _, _, he, -⟩; exact h d a he

theorem operands3_eq_some_iff (f : Reg → Reg → Reg → Instr) (ops : List AsmOperand) (i : Instr) :
    operands3 f ops = some i ↔
      ∃ d a b rd rs1 rs2, ops = [d, a, b] ∧ operandReg d = some rd ∧ operandReg a = some rs1 ∧
        operandReg b = some rs2 ∧ f rd rs1 rs2 = i := by
  unfold operands3; split
  · rename_i d a b
    simp only [Option.bind_eq_bind, Option.bind_eq_some_iff, Option.pure_def, Option.some.injEq]
    constructor
    · rintro ⟨rd, h1, rs1, h2, rs2, h3, rfl⟩; exact ⟨d, a, b, rd, rs1, rs2, rfl, h1, h2, h3, rfl⟩
    · rintro ⟨_, _, _, rd, rs1, rs2, he, h1, h2, h3, rfl⟩; cases he; exact ⟨rd, h1, rs1, h2, rs2, h3, rfl⟩
  · rename_i h
    simp only [reduceCtorEq, false_iff]
    rintro ⟨d, a, b, _, _, _, he, -⟩; exact h d a b he

theorem operands4_eq_some_iff (f : Reg → Reg → Reg → Reg → Instr) (ops : List AsmOperand) (i : Instr) :
    operands4 f ops = some i ↔
      ∃ d a b e r1 r2 r3 r4, ops = [d, a, b, e] ∧ operandReg d = some r1 ∧ operandReg a = some r2 ∧
        operandReg b = some r3 ∧ operandReg e = some r4 ∧ f r1 r2 r3 r4 = i := by
  unfold operands4; split
  · rename_i d a b e
    simp only [Option.bind_eq_bind, Option.bind_eq_some_iff, Option.pure_def, Option.some.injEq]
    constructor
    · rintro ⟨r1, h1, r2, h2, r3, h3, r4, h4, rfl⟩; exact ⟨d, a, b, e, r1, r2, r3, r4, rfl, h1, h2, h3, h4, rfl⟩
    · rintro ⟨_, _, _, _, r1, r2, r3, r4, he, h1, h2, h3, h4, rfl⟩; cases he
      exact ⟨r1, h1, r2, h2, r3, h3, r4, h4, rfl⟩
  · rename_i h
    simp only [reduceCtorEq, false_iff]
    rintro ⟨d, a, b, e, _, _, _, _, he, -⟩; exact h d a b e he

theorem operandsImm_eq_some_iff (f : Reg → BitVec 64 → Instr) (lo hi : Int) (ops : List AsmOperand) (i : Instr) :
    operandsImm f lo hi ops = some i ↔
      ∃ d n rd imm, ops = [d, n] ∧ operandReg d = some rd ∧ operandImm lo hi n = some imm ∧ f rd imm = i := by
  unfold operandsImm; split
  · rename_i d n
    simp only [Option.bind_eq_bind, Option.bind_eq_some_iff, Option.pure_def, Option.some.injEq]
    constructor
    · rintro ⟨rd, h1, imm, h2, rfl⟩; exact ⟨d, n, rd, imm, rfl, h1, h2, rfl⟩
    · rintro ⟨_, _, rd, imm, he, h1, h2, rfl⟩; cases he; exact ⟨rd, h1, imm, h2, rfl⟩
  · rename_i h
    simp only [reduceCtorEq, false_iff]
    rintro ⟨d, n, _, _, he, -⟩; exact h d n he

/-! ## Text -/

/-- Text without `;` at its front is what the comment leaves. -/
theorem dropComment_append (cs comment : List Char) (h : ∀ ch ∈ cs, ch ≠ ';') :
    dropComment (cs ++ ';' :: comment) = cs := by
  induction cs with
  | nil => simp [dropComment]
  | cons ch cs ih => simp [dropComment, h ch (by simp), ih fun x hx => h x (by simp [hx])]

/-- Text without `;` is kept. -/
theorem dropComment_eq_self (cs : List Char) (h : ∀ ch ∈ cs, ch ≠ ';') : dropComment cs = cs := by
  induction cs with
  | nil => rfl
  | cons ch cs ih => simp [dropComment, h ch (by simp), ih fun x hx => h x (by simp [hx])]

/-- Text with no blank at either end is kept. -/
theorem trimBlanks_eq_self (cs : List Char) (h1 : ∀ x, cs.head? = some x → isBlankChar x = false)
    (h2 : ∀ x, cs.getLast? = some x → isBlankChar x = false) : trimBlanks cs = cs := by
  have keep : ∀ l : List Char, (∀ x, l.head? = some x → isBlankChar x = false) → l.dropWhile isBlankChar = l := by
    intro l h
    cases l with
    | nil => rfl
    | cons a l => simp [List.dropWhile, h a rfl]
  unfold trimBlanks
  rw [keep cs h1, keep _ (by rw [List.head?_reverse]; exact h2), List.reverse_reverse]

/-- A blank in front is dropped. -/
theorem trimBlanks_cons_blank (cs : List Char) : trimBlanks (' ' :: cs) = trimBlanks cs := by
  simp [trimBlanks, List.dropWhile, isBlankChar]

/-- Text without a comma is one field. -/
theorem splitCommas_eq_singleton (f : List Char) (h : ∀ ch ∈ f, ch ≠ ',') : splitCommas f = [f] := by
  induction f with
  | nil => rfl
  | cons ch f ih =>
    rw [splitCommas, ih fun x hx => h x (by simp [hx])]
    simp [h ch (by simp)]

/-- A comma ends a field. -/
theorem splitCommas_append (f rest : List Char) (h : ∀ ch ∈ f, ch ≠ ',') :
    splitCommas (f ++ ',' :: rest) = f :: splitCommas rest := by
  induction f with
  | nil => simp [splitCommas]
  | cons ch f ih =>
    rw [List.cons_append, splitCommas, ih fun x hx => h x (by simp [hx])]
    simp [h ch (by simp)]

end Sys2Proof.Machine
end

