-- ==== Sys2Proof/Laws/Decode.lean ====
section
/-! SUPPORT. The header fields as numbers, the fields of an encoded header, and what a decoded packet satisfies. -/

namespace Sys2Proof

/-! ## Fields as numbers (30_encoding.md R60) -/

theorem hdrOpc_toNat (h : Header) : (hdrOpc h).toNat = h.toNat % 2 ^ 8 := by
  simp [hdrOpc, BitVec.extractLsb'_toNat]

theorem hdrReg_val (h : Header) (lo : Nat) : (hdrReg h lo).val = h.toNat / 2 ^ lo % 2 ^ 4 := by
  simp [hdrReg, BitVec.extractLsb'_toNat, Nat.shiftRight_eq_div_pow]

theorem hdrResv_toNat (h : Header) : (hdrResv h).toNat = h.toNat / 2 ^ 24 := by
  have := h.isLt
  simp only [hdrResv, BitVec.extractLsb'_toNat, Nat.shiftRight_eq_div_pow]
  omega

/-- The fields of a header account for all its bits (R60). -/
theorem header_toNat (h : Header) :
    h.toNat = (hdrOpc h).toNat + (hdrRd h).val * 2 ^ 8 + (hdrRs1 h).val * 2 ^ 12 + (hdrRs2 h).val * 2 ^ 16 +
      (hdrRs3 h).val * 2 ^ 20 + (hdrResv h).toNat * 2 ^ 24 := by
  have := h.isLt
  simp only [hdrOpc_toNat, hdrRd, hdrRs1, hdrRs2, hdrRs3, hdrReg_val, hdrResv_toNat]
  omega

/-! ## The encoded header -/

theorem headerOf_toNat (opc : Nat) (rd rs1 rs2 rs3 : Reg) (ho : opc < 256) :
    (headerOf opc rd rs1 rs2 rs3).toNat =
      opc + rd.val * 2 ^ 8 + rs1.val * 2 ^ 12 + rs2.val * 2 ^ 16 + rs3.val * 2 ^ 20 := by
  have := rd.isLt
  have := rs1.isLt
  have := rs2.isLt
  have := rs3.isLt
  simp only [headerOf, BitVec.toNat_ofNat]
  omega

theorem hdrOpc_headerOf (opc : Nat) (rd rs1 rs2 rs3 : Reg) (ho : opc < 256) :
    (hdrOpc (headerOf opc rd rs1 rs2 rs3)).toNat = opc := by
  rw [hdrOpc_toNat, headerOf_toNat _ _ _ _ _ ho]; omega

theorem hdrRd_headerOf (opc : Nat) (rd rs1 rs2 rs3 : Reg) (ho : opc < 256) :
    hdrRd (headerOf opc rd rs1 rs2 rs3) = rd := by
  apply Fin.ext
  rw [hdrRd, hdrReg_val, headerOf_toNat _ _ _ _ _ ho]; omega

theorem hdrRs1_headerOf (opc : Nat) (rd rs1 rs2 rs3 : Reg) (ho : opc < 256) :
    hdrRs1 (headerOf opc rd rs1 rs2 rs3) = rs1 := by
  apply Fin.ext
  rw [hdrRs1, hdrReg_val, headerOf_toNat _ _ _ _ _ ho]; omega

theorem hdrRs2_headerOf (opc : Nat) (rd rs1 rs2 rs3 : Reg) (ho : opc < 256) :
    hdrRs2 (headerOf opc rd rs1 rs2 rs3) = rs2 := by
  apply Fin.ext
  rw [hdrRs2, hdrReg_val, headerOf_toNat _ _ _ _ _ ho]; omega

theorem hdrRs3_headerOf (opc : Nat) (rd rs1 rs2 rs3 : Reg) (ho : opc < 256) :
    hdrRs3 (headerOf opc rd rs1 rs2 rs3) = rs3 := by
  apply Fin.ext
  rw [hdrRs3, hdrReg_val, headerOf_toNat _ _ _ _ _ ho]; omega

theorem hdrResv_headerOf (opc : Nat) (rd rs1 rs2 rs3 : Reg) (ho : opc < 256) :
    hdrResv (headerOf opc rd rs1 rs2 rs3) = 0 := by
  apply BitVec.eq_of_toNat_eq
  rw [hdrResv_toNat, headerOf_toNat _ _ _ _ _ ho]
  change _ = 0
  omega

theorem opcode_lt (i : Instr) : i.opcode < 256 := by cases i <;> simp [Instr.opcode]

/-! ## Selecting a command by opcode (R65) -/

/-- The opcode and fields of a command select it. -/
theorem commandOf_encode (i : Instr) :
    commandOf i.opcode i.regFields.rd i.regFields.rs1 i.regFields.rs2 i.regFields.rs3 i.immediate = some i := by
  cases i <;> rfl

/-- What the selected command says about the fields it was selected with: its own opcode, the used fields as given, the
unused ones 0. -/
theorem commandOf_eq_some {opc : Nat} {rd rs1 rs2 rs3 : Reg} {imm : BitVec 64} {i : Instr}
    (h : commandOf opc rd rs1 rs2 rs3 imm = some i) :
    i.opcode = opc ∧
    i.regFields = ⟨if i.format.uses.rd then rd else 0, if i.format.uses.rs1 then rs1 else 0,
      if i.format.uses.rs2 then rs2 else 0, if i.format.uses.rs3 then rs3 else 0⟩ ∧
    i.immediate = if i.format.uses.immBits = 0 then 0 else imm := by
  unfold commandOf at h
  split at h
  case h_28 => simp at h
  all_goals
    obtain rfl := Option.some.inj h
    exact ⟨rfl, rfl, rfl⟩

/-! ## What a decoded packet satisfies -/

/-- Everything a decoded command says about its packet (R66, R68). -/
theorem decode_eq_command_iff (p : Packet) (i : Instr) :
    decode p = .command i ↔
      selectCommand p = some i ∧ hdrResv p.hdr = 0 ∧ unusedRegsZero i.format p.hdr = true ∧
        unusedImmZero i.format p.imm = true := by
  unfold decode
  cases hs : selectCommand p with
  | none => simp
  | some j =>
    simp only [Option.some.injEq]
    constructor
    · intro h
      split at h
      · simp at h
      split at h
      · simp at h
      split at h
      · simp at h
      rename_i h1 h2 h3
      obtain rfl : j = i := by simpa using h
      exact ⟨rfl, by simpa using h1, by simpa using h2, by simpa using h3⟩
    · rintro ⟨rfl, h1, h2, h3⟩
      simp [h1, h2, h3]

/-- A packet decodes to a command or is illegal, and not both (R68). -/
theorem decode_total (p : Packet) : (∃ i, decode p = .command i) ∨ ∃ why, decode p = .illegal why := by
  cases h : decode p with
  | command i => exact .inl ⟨i, rfl⟩
  | illegal why => exact .inr ⟨why, rfl⟩

end Sys2Proof
end

