-- ==== Sys2Proof/Laws/State.lean ====
section
/-! SUPPORT. What each update of the state does to each field: one lemma per field per update, true by rfl. -/

namespace Sys2Proof.Machine

@[simp] theorem setReg_regs (s : State) (r : Reg) (w : Word) : (s.setReg r w).regs = s.regs.set r w := rfl
@[simp] theorem setReg_c (s : State) (r : Reg) (w : Word) : (s.setReg r w).c = s.c := rfl
@[simp] theorem setReg_v (s : State) (r : Reg) (w : Word) : (s.setReg r w).v = s.v := rfl
@[simp] theorem setReg_inFlight (s : State) (r : Reg) (w : Word) : (s.setReg r w).inFlight = s.inFlight := rfl
@[simp] theorem setReg_fault (s : State) (r : Reg) (w : Word) : (s.setReg r w).fault = s.fault := rfl
@[simp] theorem setReg_fcmd (s : State) (r : Reg) (w : Word) : (s.setReg r w).fcmd = s.fcmd := rfl
@[simp] theorem setReg_offered (s : State) (r : Reg) (w : Word) : (s.setReg r w).offered = s.offered := rfl
@[simp] theorem setReg_reply (s : State) (r : Reg) (w : Word) : (s.setReg r w).reply = s.reply := rfl
@[simp] theorem setReg_script (s : State) (r : Reg) (w : Word) : (s.setReg r w).script = s.script := rfl
@[simp] theorem setReg_turns (s : State) (r : Reg) (w : Word) : (s.setReg r w).turns = s.turns := rfl

@[simp] theorem setC_regs (s : State) (b : Bool) : (s.setC b).regs = s.regs := rfl
@[simp] theorem setC_c (s : State) (b : Bool) : (s.setC b).c = b := rfl
@[simp] theorem setC_v (s : State) (b : Bool) : (s.setC b).v = s.v := rfl
@[simp] theorem setC_inFlight (s : State) (b : Bool) : (s.setC b).inFlight = s.inFlight := rfl
@[simp] theorem setC_fault (s : State) (b : Bool) : (s.setC b).fault = s.fault := rfl
@[simp] theorem setC_fcmd (s : State) (b : Bool) : (s.setC b).fcmd = s.fcmd := rfl
@[simp] theorem setC_offered (s : State) (b : Bool) : (s.setC b).offered = s.offered := rfl
@[simp] theorem setC_reply (s : State) (b : Bool) : (s.setC b).reply = s.reply := rfl
@[simp] theorem setC_script (s : State) (b : Bool) : (s.setC b).script = s.script := rfl
@[simp] theorem setC_turns (s : State) (b : Bool) : (s.setC b).turns = s.turns := rfl

@[simp] theorem setV_regs (s : State) (b : Bool) : (s.setV b).regs = s.regs := rfl
@[simp] theorem setV_c (s : State) (b : Bool) : (s.setV b).c = s.c := rfl
@[simp] theorem setV_v (s : State) (b : Bool) : (s.setV b).v = b := rfl
@[simp] theorem setV_inFlight (s : State) (b : Bool) : (s.setV b).inFlight = s.inFlight := rfl
@[simp] theorem setV_fault (s : State) (b : Bool) : (s.setV b).fault = s.fault := rfl
@[simp] theorem setV_fcmd (s : State) (b : Bool) : (s.setV b).fcmd = s.fcmd := rfl
@[simp] theorem setV_offered (s : State) (b : Bool) : (s.setV b).offered = s.offered := rfl
@[simp] theorem setV_reply (s : State) (b : Bool) : (s.setV b).reply = s.reply := rfl
@[simp] theorem setV_script (s : State) (b : Bool) : (s.setV b).script = s.script := rfl
@[simp] theorem setV_turns (s : State) (b : Bool) : (s.setV b).turns = s.turns := rfl

@[simp] theorem complete_regs (s : State) : s.complete.regs = s.regs := rfl
@[simp] theorem complete_c (s : State) : s.complete.c = s.c := rfl
@[simp] theorem complete_v (s : State) : s.complete.v = s.v := rfl
@[simp] theorem complete_inFlight (s : State) : s.complete.inFlight = none := rfl
@[simp] theorem complete_fault (s : State) : s.complete.fault = s.fault := rfl
@[simp] theorem complete_fcmd (s : State) : s.complete.fcmd = s.fcmd := rfl
@[simp] theorem complete_offered (s : State) : s.complete.offered = s.offered := rfl
@[simp] theorem complete_reply (s : State) : s.complete.reply = some .done := rfl
@[simp] theorem complete_script (s : State) : s.complete.script = s.script := rfl
@[simp] theorem complete_turns (s : State) : s.complete.turns = s.turns := rfl

@[simp] theorem takeFault_regs (s : State) (code : FaultCode) (hdr : Header) : (s.takeFault code hdr).regs = s.regs := rfl
@[simp] theorem takeFault_c (s : State) (code : FaultCode) (hdr : Header) : (s.takeFault code hdr).c = s.c := rfl
@[simp] theorem takeFault_v (s : State) (code : FaultCode) (hdr : Header) : (s.takeFault code hdr).v = s.v := rfl
@[simp] theorem takeFault_inFlight (s : State) (code : FaultCode) (hdr : Header) : (s.takeFault code hdr).inFlight = none := rfl
@[simp] theorem takeFault_fault (s : State) (code : FaultCode) (hdr : Header) : (s.takeFault code hdr).fault = code := rfl
@[simp] theorem takeFault_fcmd (s : State) (code : FaultCode) (hdr : Header) : (s.takeFault code hdr).fcmd = hdr := rfl
@[simp] theorem takeFault_offered (s : State) (code : FaultCode) (hdr : Header) : (s.takeFault code hdr).offered = s.offered := rfl
@[simp] theorem takeFault_reply (s : State) (code : FaultCode) (hdr : Header) : (s.takeFault code hdr).reply = some .done := rfl
@[simp] theorem takeFault_script (s : State) (code : FaultCode) (hdr : Header) : (s.takeFault code hdr).script = s.script := rfl
@[simp] theorem takeFault_turns (s : State) (code : FaultCode) (hdr : Header) : (s.takeFault code hdr).turns = s.turns := rfl

@[simp] theorem accept_regs (s : State) (p : Packet) : (s.accept p).regs = s.regs := rfl
@[simp] theorem accept_c (s : State) (p : Packet) : (s.accept p).c = s.c := rfl
@[simp] theorem accept_v (s : State) (p : Packet) : (s.accept p).v = s.v := rfl
@[simp] theorem accept_inFlight (s : State) (p : Packet) : (s.accept p).inFlight = some p := rfl
@[simp] theorem accept_fault (s : State) (p : Packet) : (s.accept p).fault = s.fault := rfl
@[simp] theorem accept_fcmd (s : State) (p : Packet) : (s.accept p).fcmd = s.fcmd := rfl
@[simp] theorem accept_offered (s : State) (p : Packet) : (s.accept p).offered = none := rfl
@[simp] theorem accept_reply (s : State) (p : Packet) : (s.accept p).reply = none := rfl
@[simp] theorem accept_script (s : State) (p : Packet) : (s.accept p).script = s.script := rfl
@[simp] theorem accept_turns (s : State) (p : Packet) : (s.accept p).turns = s.turns := rfl

@[simp] theorem nextTurn_regs (s : State) : s.nextTurn.regs = s.regs := rfl
@[simp] theorem nextTurn_c (s : State) : s.nextTurn.c = s.c := rfl
@[simp] theorem nextTurn_v (s : State) : s.nextTurn.v = s.v := rfl
@[simp] theorem nextTurn_inFlight (s : State) : s.nextTurn.inFlight = s.inFlight := rfl
@[simp] theorem nextTurn_fault (s : State) : s.nextTurn.fault = s.fault := rfl
@[simp] theorem nextTurn_fcmd (s : State) : s.nextTurn.fcmd = s.fcmd := rfl
@[simp] theorem nextTurn_offered (s : State) : s.nextTurn.offered = s.offered := rfl
@[simp] theorem nextTurn_reply (s : State) : s.nextTurn.reply = s.reply := rfl
@[simp] theorem nextTurn_script (s : State) : s.nextTurn.script = s.script := rfl
@[simp] theorem nextTurn_turns (s : State) : s.nextTurn.turns = s.turns.tail := rfl

@[simp] theorem hostReset_regs (s : State) (keep : Bool) : (s.hostReset keep).regs = Vector.replicate 16 0 := rfl
@[simp] theorem hostReset_c (s : State) (keep : Bool) : (s.hostReset keep).c = false := rfl
@[simp] theorem hostReset_v (s : State) (keep : Bool) : (s.hostReset keep).v = false := rfl
@[simp] theorem hostReset_inFlight (s : State) (keep : Bool) : (s.hostReset keep).inFlight = none := rfl
@[simp] theorem hostReset_fault (s : State) (keep : Bool) : (s.hostReset keep).fault = .none := rfl
@[simp] theorem hostReset_fcmd (s : State) (keep : Bool) : (s.hostReset keep).fcmd = 0 := rfl
@[simp] theorem hostReset_offered (s : State) (keep : Bool) : (s.hostReset keep).offered = if keep then s.offered else none := rfl
@[simp] theorem hostReset_script (s : State) (keep : Bool) : (s.hostReset keep).script = s.script := rfl
@[simp] theorem hostReset_turns (s : State) (keep : Bool) : (s.hostReset keep).turns = s.turns := rfl

@[simp] theorem withAccepted_regs (s : State) (p : Packet) : (s.withAccepted p).regs = s.regs := rfl
@[simp] theorem withAccepted_c (s : State) (p : Packet) : (s.withAccepted p).c = s.c := rfl
@[simp] theorem withAccepted_v (s : State) (p : Packet) : (s.withAccepted p).v = s.v := rfl
@[simp] theorem withAccepted_inFlight (s : State) (p : Packet) : (s.withAccepted p).inFlight = some p := rfl
@[simp] theorem withAccepted_fault (s : State) (p : Packet) : (s.withAccepted p).fault = .none := rfl
@[simp] theorem withAccepted_fcmd (s : State) (p : Packet) : (s.withAccepted p).fcmd = 0 := rfl
@[simp] theorem withAccepted_offered (s : State) (p : Packet) : (s.withAccepted p).offered = s.offered := rfl
@[simp] theorem withAccepted_reply (s : State) (p : Packet) : (s.withAccepted p).reply = s.reply := rfl
@[simp] theorem withAccepted_script (s : State) (p : Packet) : (s.withAccepted p).script = s.script := rfl
@[simp] theorem withAccepted_turns (s : State) (p : Packet) : (s.withAccepted p).turns = [] := rfl

@[simp] theorem hostControlWrite_regs (s : State) (a : Nat) (x : BitVec 32) : (s.hostControlWrite a x).regs = s.regs := rfl
@[simp] theorem hostControlWrite_c (s : State) (a : Nat) (x : BitVec 32) : (s.hostControlWrite a x).c = s.c := rfl
@[simp] theorem hostControlWrite_v (s : State) (a : Nat) (x : BitVec 32) : (s.hostControlWrite a x).v = s.v := rfl
@[simp] theorem hostControlWrite_inFlight (s : State) (a : Nat) (x : BitVec 32) : (s.hostControlWrite a x).inFlight = s.inFlight := rfl
@[simp] theorem hostControlWrite_fault (s : State) (a : Nat) (x : BitVec 32) : (s.hostControlWrite a x).fault = s.fault := rfl
@[simp] theorem hostControlWrite_fcmd (s : State) (a : Nat) (x : BitVec 32) : (s.hostControlWrite a x).fcmd = s.fcmd := rfl
@[simp] theorem hostControlWrite_offered (s : State) (a : Nat) (x : BitVec 32) : (s.hostControlWrite a x).offered = s.offered := rfl
@[simp] theorem hostControlWrite_reply (s : State) (a : Nat) (x : BitVec 32) : (s.hostControlWrite a x).reply = some (.controlWrite .errRo) := rfl
@[simp] theorem hostControlWrite_script (s : State) (a : Nat) (x : BitVec 32) : (s.hostControlWrite a x).script = s.script := rfl
@[simp] theorem hostControlWrite_turns (s : State) (a : Nat) (x : BitVec 32) : (s.hostControlWrite a x).turns = s.turns := rfl

@[simp] theorem hostWindowRead_regs (s : State) (a n : Nat) : (s.hostWindowRead a n).regs = s.regs := rfl
@[simp] theorem hostWindowRead_c (s : State) (a n : Nat) : (s.hostWindowRead a n).c = s.c := rfl
@[simp] theorem hostWindowRead_v (s : State) (a n : Nat) : (s.hostWindowRead a n).v = s.v := rfl
@[simp] theorem hostWindowRead_inFlight (s : State) (a n : Nat) : (s.hostWindowRead a n).inFlight = s.inFlight := rfl
@[simp] theorem hostWindowRead_fault (s : State) (a n : Nat) : (s.hostWindowRead a n).fault = s.fault := rfl
@[simp] theorem hostWindowRead_fcmd (s : State) (a n : Nat) : (s.hostWindowRead a n).fcmd = s.fcmd := rfl
@[simp] theorem hostWindowRead_offered (s : State) (a n : Nat) : (s.hostWindowRead a n).offered = s.offered := rfl
@[simp] theorem hostWindowRead_script (s : State) (a n : Nat) : (s.hostWindowRead a n).script = s.script := rfl
@[simp] theorem hostWindowRead_turns (s : State) (a n : Nat) : (s.hostWindowRead a n).turns = s.turns := rfl

@[simp] theorem hostControlRead_regs (s : State) (a : Nat) : (s.hostControlRead a).regs = s.regs := rfl
@[simp] theorem hostControlRead_c (s : State) (a : Nat) : (s.hostControlRead a).c = s.c := rfl
@[simp] theorem hostControlRead_v (s : State) (a : Nat) : (s.hostControlRead a).v = s.v := rfl
@[simp] theorem hostControlRead_inFlight (s : State) (a : Nat) : (s.hostControlRead a).inFlight = s.inFlight := rfl
@[simp] theorem hostControlRead_fault (s : State) (a : Nat) : (s.hostControlRead a).fault = s.fault := rfl
@[simp] theorem hostControlRead_fcmd (s : State) (a : Nat) : (s.hostControlRead a).fcmd = s.fcmd := rfl
@[simp] theorem hostControlRead_offered (s : State) (a : Nat) : (s.hostControlRead a).offered = s.offered := rfl
@[simp] theorem hostControlRead_script (s : State) (a : Nat) : (s.hostControlRead a).script = s.script := rfl
@[simp] theorem hostControlRead_turns (s : State) (a : Nat) : (s.hostControlRead a).turns = s.turns := rfl

@[simp] theorem reset_regs : State.reset.regs = Vector.replicate 16 0 := rfl
@[simp] theorem reset_c : State.reset.c = false := rfl
@[simp] theorem reset_v : State.reset.v = false := rfl
@[simp] theorem reset_inFlight : State.reset.inFlight = none := rfl
@[simp] theorem reset_fault : State.reset.fault = .none := rfl
@[simp] theorem reset_fcmd : State.reset.fcmd = 0 := rfl
@[simp] theorem reset_offered : State.reset.offered = none := rfl
@[simp] theorem reset_script : State.reset.script = [] := rfl
@[simp] theorem reset_turns : State.reset.turns = [] := rfl

@[simp] theorem holdOffer_regs (s : State) (p : Packet) : (s.holdOffer p).regs = s.regs := rfl
@[simp] theorem holdOffer_c (s : State) (p : Packet) : (s.holdOffer p).c = s.c := rfl
@[simp] theorem holdOffer_v (s : State) (p : Packet) : (s.holdOffer p).v = s.v := rfl
@[simp] theorem holdOffer_inFlight (s : State) (p : Packet) : (s.holdOffer p).inFlight = s.inFlight := rfl
@[simp] theorem holdOffer_fault (s : State) (p : Packet) : (s.holdOffer p).fault = s.fault := rfl
@[simp] theorem holdOffer_fcmd (s : State) (p : Packet) : (s.holdOffer p).fcmd = s.fcmd := rfl
@[simp] theorem holdOffer_offered (s : State) (p : Packet) : (s.holdOffer p).offered = some p := rfl
@[simp] theorem holdOffer_reply (s : State) (p : Packet) : (s.holdOffer p).reply = none := rfl
@[simp] theorem holdOffer_script (s : State) (p : Packet) : (s.holdOffer p).script = s.script := rfl
@[simp] theorem holdOffer_turns (s : State) (p : Packet) : (s.holdOffer p).turns = s.turns := rfl

@[simp] theorem noReply_regs (s : State) : (s.noReply).regs = s.regs := rfl
@[simp] theorem noReply_c (s : State) : (s.noReply).c = s.c := rfl
@[simp] theorem noReply_v (s : State) : (s.noReply).v = s.v := rfl
@[simp] theorem noReply_inFlight (s : State) : (s.noReply).inFlight = s.inFlight := rfl
@[simp] theorem noReply_fault (s : State) : (s.noReply).fault = s.fault := rfl
@[simp] theorem noReply_fcmd (s : State) : (s.noReply).fcmd = s.fcmd := rfl
@[simp] theorem noReply_offered (s : State) : (s.noReply).offered = s.offered := rfl
@[simp] theorem noReply_reply (s : State) : (s.noReply).reply = none := rfl
@[simp] theorem noReply_script (s : State) : (s.noReply).script = s.script := rfl
@[simp] theorem noReply_turns (s : State) : (s.noReply).turns = s.turns := rfl

@[simp] theorem setScript_regs (s : State) (rest : List HostAction) : (s.setScript rest).regs = s.regs := rfl
@[simp] theorem setScript_c (s : State) (rest : List HostAction) : (s.setScript rest).c = s.c := rfl
@[simp] theorem setScript_v (s : State) (rest : List HostAction) : (s.setScript rest).v = s.v := rfl
@[simp] theorem setScript_inFlight (s : State) (rest : List HostAction) : (s.setScript rest).inFlight = s.inFlight := rfl
@[simp] theorem setScript_fault (s : State) (rest : List HostAction) : (s.setScript rest).fault = s.fault := rfl
@[simp] theorem setScript_fcmd (s : State) (rest : List HostAction) : (s.setScript rest).fcmd = s.fcmd := rfl
@[simp] theorem setScript_offered (s : State) (rest : List HostAction) : (s.setScript rest).offered = s.offered := rfl
@[simp] theorem setScript_reply (s : State) (rest : List HostAction) : (s.setScript rest).reply = s.reply := rfl
@[simp] theorem setScript_script (s : State) (rest : List HostAction) : (s.setScript rest).script = rest := rfl
@[simp] theorem setScript_turns (s : State) (rest : List HostAction) : (s.setScript rest).turns = s.turns := rfl

@[simp] theorem answer_regs (s : State) (r : Reply) : (s.answer r).regs = s.regs := rfl
@[simp] theorem answer_c (s : State) (r : Reply) : (s.answer r).c = s.c := rfl
@[simp] theorem answer_v (s : State) (r : Reply) : (s.answer r).v = s.v := rfl
@[simp] theorem answer_inFlight (s : State) (r : Reply) : (s.answer r).inFlight = s.inFlight := rfl
@[simp] theorem answer_fault (s : State) (r : Reply) : (s.answer r).fault = s.fault := rfl
@[simp] theorem answer_fcmd (s : State) (r : Reply) : (s.answer r).fcmd = s.fcmd := rfl
@[simp] theorem answer_offered (s : State) (r : Reply) : (s.answer r).offered = s.offered := rfl
@[simp] theorem answer_reply (s : State) (r : Reply) : (s.answer r).reply = some r := rfl
@[simp] theorem answer_script (s : State) (r : Reply) : (s.answer r).script = s.script := rfl
@[simp] theorem answer_turns (s : State) (r : Reply) : (s.answer r).turns = s.turns := rfl

end Sys2Proof.Machine
end

