-- ==== Sys2Proof/Laws/Ops.lean ====
section
/-! SUPPORT. One spec lemma per shared operation: registers, STATUS, window bytes, the host's interactions. -/

namespace Sys2Proof.Machine

/-! ## Registers -/

theorem reg_setReg (s : State) (r q : Reg) (w : Word) :
    (s.setReg r w).reg q = if q = r then w else s.reg q := by
  simp only [State.reg, State.setReg, Fin.getElem_fin, Vector.getElem_set]
  by_cases h : q = r
  · simp [h]
  · have : (r : Nat) ≠ q := fun e => h (Fin.ext e.symm)
    simp [h, this]

@[simp] theorem reg_setReg_self (s : State) (r : Reg) (w : Word) : (s.setReg r w).reg r = w := by
  simp [reg_setReg]

theorem reg_setReg_ne (s : State) {r q : Reg} (w : Word) (h : q ≠ r) : (s.setReg r w).reg q = s.reg q := by
  simp [reg_setReg, h]

@[simp] theorem reg_setC (s : State) (b : Bool) (q : Reg) : (s.setC b).reg q = s.reg q := rfl
@[simp] theorem reg_setV (s : State) (b : Bool) (q : Reg) : (s.setV b).reg q = s.reg q := rfl
@[simp] theorem reg_complete (s : State) (q : Reg) : s.complete.reg q = s.reg q := rfl
@[simp] theorem reg_takeFault (s : State) (f : FaultCode) (h : Header) (q : Reg) :
    (s.takeFault f h).reg q = s.reg q := rfl
@[simp] theorem reg_nextTurn (s : State) (q : Reg) : s.nextTurn.reg q = s.reg q := rfl
@[simp] theorem reg_setScript (s : State) (rest : List HostAction) (q : Reg) : (s.setScript rest).reg q = s.reg q := rfl
@[simp] theorem reg_holdOffer (s : State) (p : Packet) (q : Reg) : (s.holdOffer p).reg q = s.reg q := rfl
@[simp] theorem reg_answer (s : State) (r : Reply) (q : Reg) : (s.answer r).reg q = s.reg q := rfl
@[simp] theorem reg_noReply (s : State) (q : Reg) : s.noReply.reg q = s.reg q := rfl
@[simp] theorem reg_accept (s : State) (p : Packet) (q : Reg) : (s.accept p).reg q = s.reg q := rfl

@[simp] theorem reg_hostReset (s : State) (keep : Bool) (q : Reg) : (s.hostReset keep).reg q = 0 := by
  simp [State.reg]

@[simp] theorem reg_reset (q : Reg) : State.reset.reg q = 0 := by simp [State.reg]

/-! ## BUSY and HALTED -/

theorem busy_eq (s : State) : s.busy = s.inFlight.isSome := rfl

@[simp] theorem busy_setReg (s : State) (r : Reg) (w : Word) : (s.setReg r w).busy = s.busy := rfl
@[simp] theorem busy_setC (s : State) (b : Bool) : (s.setC b).busy = s.busy := rfl
@[simp] theorem busy_setV (s : State) (b : Bool) : (s.setV b).busy = s.busy := rfl
@[simp] theorem busy_complete (s : State) : s.complete.busy = false := rfl
@[simp] theorem busy_takeFault (s : State) (f : FaultCode) (h : Header) : (s.takeFault f h).busy = false := rfl
@[simp] theorem busy_accept (s : State) (p : Packet) : (s.accept p).busy = true := rfl
@[simp] theorem busy_nextTurn (s : State) : s.nextTurn.busy = s.busy := rfl
@[simp] theorem busy_setScript (s : State) (rest : List HostAction) : (s.setScript rest).busy = s.busy := rfl
@[simp] theorem busy_holdOffer (s : State) (p : Packet) : (s.holdOffer p).busy = s.busy := rfl
@[simp] theorem busy_answer (s : State) (r : Reply) : (s.answer r).busy = s.busy := rfl
@[simp] theorem busy_noReply (s : State) : s.noReply.busy = s.busy := rfl
@[simp] theorem busy_hostReset (s : State) (keep : Bool) : (s.hostReset keep).busy = false := rfl
@[simp] theorem busy_reset : State.reset.busy = false := rfl

@[simp] theorem halted_nextTurn (s : State) : s.nextTurn.halted = s.halted := rfl
@[simp] theorem halted_setScript (s : State) (rest : List HostAction) : (s.setScript rest).halted = s.halted := rfl
@[simp] theorem halted_holdOffer (s : State) (p : Packet) : (s.holdOffer p).halted = s.halted := rfl
@[simp] theorem halted_answer (s : State) (r : Reply) : (s.answer r).halted = s.halted := rfl
@[simp] theorem halted_noReply (s : State) : s.noReply.halted = s.halted := rfl
@[simp] theorem halted_accept (s : State) (p : Packet) : (s.accept p).halted = s.halted := rfl
@[simp] theorem halted_setReg (s : State) (r : Reg) (w : Word) : (s.setReg r w).halted = s.halted := rfl
@[simp] theorem halted_setC (s : State) (b : Bool) : (s.setC b).halted = s.halted := rfl
@[simp] theorem halted_setV (s : State) (b : Bool) : (s.setV b).halted = s.halted := rfl
@[simp] theorem halted_complete (s : State) : s.complete.halted = s.halted := rfl
@[simp] theorem halted_hostReset (s : State) (keep : Bool) : (s.hostReset keep).halted = false := rfl
@[simp] theorem halted_reset : State.reset.halted = false := rfl

theorem halted_eq_false_iff (s : State) : s.halted = false ↔ s.fault = .none := by
  simp [State.halted]

theorem halted_eq_true_iff (s : State) : s.halted = true ↔ s.fault ≠ .none := by
  simp [State.halted]

/-! ## Completion and faults as relations -/

theorem completed_setReg_complete (s : State) (r : Reg) (w : Word) : Completed s (s.setReg r w).complete := by
  simp [Completed]

theorem wroteOnly_setReg_complete (s : State) (r : Reg) (w : Word) : WroteOnly r w s (s.setReg r w).complete := by
  refine ⟨completed_setReg_complete s r w, by simp, fun q hq => ?_, by simp [SameFlags]⟩
  simp [reg_setReg_ne s w hq]

theorem faultedPrecisely_takeFault (s : State) (code : FaultCode) (hdr : Header) :
    FaultedPrecisely code hdr s (s.takeFault code hdr) := by
  simp [FaultedPrecisely, SameFlags]

/-! ## The answer to a host-window access -/

theorem windowResponse_ok_iff (addr size : Nat) (busy : Bool) :
    windowResponse addr size busy = .ok ↔
      (size = 1 ∨ size = 8 ∨ size = 32) ∧ addr < 512 ∧ addr % size = 0 ∧ busy = false := by
  unfold windowResponse
  split
  · rename_i h; simp; omega
  split
  · simp; omega
  split
  · rename_i h; simp [h]
  split
  · rename_i h; simp [h]
  · rename_i h1 h2 h3 h4
    simp only [true_iff]
    exact ⟨by omega, by omega, by simpa using h3, by simpa using h4⟩

@[simp] theorem windowBytes_length (s : State) (a n : Nat) : (s.windowBytes a n).length = n := by
  induction n generalizing a with
  | zero => rfl
  | succ n ih => simp [State.windowBytes, ih]

@[simp] theorem setWindowBytes_busy (s : State) (a : Nat) (data : List Byte) :
    (s.setWindowBytes a data).busy = s.busy := by
  induction data generalizing s a with
  | nil => rfl
  | cons b rest ih => rw [State.setWindowBytes, ih]; rfl

/-- The window is a view of the registers: states with equal registers show equal bytes (20_memory.md R41). -/
theorem windowByte_congr {s t : State} (h : s.regs = t.regs) (a : Nat) : s.windowByte a = t.windowByte a := by
  simp only [State.windowByte, State.reg, h]

theorem windowBytes_congr {s t : State} (h : s.regs = t.regs) (a n : Nat) : s.windowBytes a n = t.windowBytes a n := by
  induction n generalizing a with
  | zero => rfl
  | succ n ih => simp only [State.windowBytes, ih, windowByte_congr h]

theorem setWindowBytes_congr {s t : State} (h : s.regs = t.regs) (a : Nat) (data : List Byte) :
    (s.setWindowBytes a data).regs = (t.setWindowBytes a data).regs := by
  induction data generalizing s t a with
  | nil => exact h
  | cons b rest ih => exact ih (by simp only [State.setWindowByte, setReg_regs, State.reg, h]) (a + 1)

/-! ## Fields a window write leaves alone -/

theorem setWindowBytes_frame (s : State) (a : Nat) (data : List Byte) :
    ∃ regs, s.setWindowBytes a data = { s with regs := regs } := by
  induction data generalizing s a with
  | nil => exact ⟨s.regs, rfl⟩
  | cons b rest ih =>
    obtain ⟨regs, h⟩ := ih (s.setWindowByte a b) (a + 1)
    exact ⟨regs, by rw [State.setWindowBytes, h]; rfl⟩

theorem hostWindowWrite_frame (s : State) (a : Nat) (data : List Byte) :
    ∃ regs, s.hostWindowWrite a data =
      { s with regs := regs, reply := some (.windowWrite (windowResponse a data.length s.busy)) } := by
  obtain ⟨regs, h⟩ := setWindowBytes_frame s a data
  unfold State.hostWindowWrite
  by_cases hr : windowResponse a data.length s.busy = .ok
  · exact ⟨regs, by simp only [hr, if_true]; rw [h]; rfl⟩
  · exact ⟨s.regs, by simp only [hr, if_false]; rfl⟩

/-- While BUSY = 1 no window write changes the registers (20_memory.md R47). -/
theorem hostWindowWrite_regs_busy (s : State) (a : Nat) (data : List Byte) (h : s.busy = true) :
    (s.hostWindowWrite a data).regs = s.regs := by
  have : windowResponse a data.length s.busy ≠ .ok := by
    rw [Ne, windowResponse_ok_iff]; simp [h]
  simp [State.hostWindowWrite, this]

/-! ## The command port -/

/-- Everything an offered packet can do: accepted when the port is free and the core is not halted, else it waits. -/
theorem hostOffer_cases (s : State) (p : Packet) :
    (s.inFlight = none ∧ s.fault = .none ∧ s.hostOffer p = s.accept p) ∨
    ((s.inFlight ≠ none ∨ s.fault ≠ .none) ∧
      s.hostOffer p = s.holdOffer p) := by
  cases hf : s.inFlight <;> cases hh : s.fault <;> simp [State.hostOffer, State.busy, State.halted, hf, hh]

end Sys2Proof.Machine
end

