-- ==== Sys2Proof/Laws/Exec.lean ====
section
/-! SUPPORT. Everything executing a command and one step can do, said once. -/

namespace Sys2Proof.Machine

/-- Everything a command can do: it takes the fault of its operand condition under its own header, or it completes,
having changed registers and flags only (60_exceptions.md R201, R202, R221). -/
theorem exec_cases (i : Instr) (s : State) :
    (faultCondition i s ≠ .none ∧ exec i s = .next (s.takeFault (faultCondition i s) i.header)) ∨
    (faultCondition i s = .none ∧
      ∃ regs c v, exec i s = .next (State.complete { s with regs := regs, c := c, v := v })) := by
  have zero : ∀ w : Word, uval w = 0 ↔ w = 0 := fun w => by simp [uval, ← BitVec.toNat_inj]
  cases i
  case quo rd rs1 rs2 | rem rd rs1 rs2 | udivrem rd rd2 rs1 rs2 =>
    by_cases h : s.reg rs2 = 0
    · left; simp [faultCondition, exec, execQuo, execRem, execUdivrem, zero, h]
    · right
      simp only [faultCondition, exec, execQuo, execRem, execUdivrem, zero, h, if_false, true_and]
      exact ⟨_, s.c, s.v, rfl⟩
  case sqrt rd rs1 =>
    by_cases h : (s.reg rs1).getLsbD 255 = true
    · left; simp only [faultCondition, exec, execSqrt, isNeg, h, if_true]; simp
    · right
      simp only [faultCondition, exec, execSqrt, isNeg, h, Bool.false_eq_true, if_false, true_and]
      exact ⟨_, s.c, s.v, rfl⟩
  case nop => exact .inr ⟨rfl, s.regs, s.c, s.v, rfl⟩
  case wrflags imm => exact .inr ⟨rfl, s.regs, _, _, rfl⟩
  case adc64 | sbb64 => exact .inr ⟨rfl, _, _, s.v, rfl⟩
  case addo | subo | mulo => exact .inr ⟨rfl, _, s.c, _, rfl⟩
  all_goals exact .inr ⟨rfl, _, s.c, s.v, rfl⟩

/-- An executed command answers a next state (60_exceptions.md R222). -/
theorem exec_next (i : Instr) (s : State) : ∃ t, exec i s = .next t := by
  rcases exec_cases i s with ⟨_, h⟩ | ⟨_, _, _, _, h⟩ <;> exact ⟨_, h⟩

/-! ## Whose move the next step is -/

/-- The core has a move only to execute the packet in progress or to accept the waiting one, never while halted. -/
theorem coreMove_cases (s : State) :
    (∃ p, s.inFlight = some p ∧ s.fault = .none ∧ coreMove s = some (.execute p)) ∨
    (∃ p, s.offered = some p ∧ s.inFlight = none ∧ s.fault = .none ∧ coreMove s = some (.accept p)) ∨
    ((s.fault ≠ .none ∨ (s.inFlight = none ∧ s.offered = none)) ∧ coreMove s = none) := by
  cases hi : s.inFlight <;> cases ho : s.offered <;> cases hf : s.fault <;>
    simp [coreMove, State.halted, hi, ho, hf]

/-- The host has a move only to make its next interaction. -/
theorem hostMove_eq_some_iff (s : State) (m : Move) :
    hostMove s = some m ↔
      ∃ a rest, m = .host a rest ∧ s.script = a :: rest ∧ (offersPacket a = true → s.offered = none) := by
  unfold hostMove
  split
  · rename_i hs; simp [hs]
  · rename_i a rest hs
    by_cases h : offersPacket a && s.offered.isSome
    · simp only [h, if_true, reduceCtorEq, hs, false_iff]
      rintro ⟨_, _, -, h1, h2⟩
      cases h1
      simp only [Bool.and_eq_true] at h
      simp [h2 h.1] at h
    · simp only [h, Bool.false_eq_true, if_false, Option.some.injEq, hs]
      constructor
      · rintro rfl
        exact ⟨a, rest, rfl, rfl, fun h1 => by simpa [h1] using h⟩
      · rintro ⟨_, _, rfl, h1, -⟩; cases h1; rfl

theorem nextMove_eq_none_iff (s : State) : nextMove s = none ↔ coreMove s = none ∧ hostMove s = none := by
  unfold nextMove; split <;> simp only [Option.or_eq_none_iff, and_comm]

/-- The next move is the host's where the host has one and it is its turn or the core has none. -/
theorem nextMove_of_hostMove {s : State} {m : Move} (hm : hostMove s = some m)
    (h : s.turns.head? = some .host ∨ coreMove s = none) : nextMove s = some m := by
  unfold nextMove
  split
  · simp [hm]
  all_goals
    rename_i ht
    have hc : coreMove s = none := by simpa [ht] using h
    simp [hc, hm]

/-- The next move is the core's where the core has one and it is not the host's turn or the host has none. -/
theorem nextMove_of_coreMove {s : State} {m : Move} (hm : coreMove s = some m)
    (h : s.turns.head? ≠ some .host ∨ hostMove s = none) : nextMove s = some m := by
  unfold nextMove
  split
  · rename_i ht
    have hh : hostMove s = none := by simpa [ht] using h
    simp [hh, hm]
  all_goals simp [hm]

theorem nextMove_eq_some_cases {s : State} {m : Move} (h : nextMove s = some m) :
    (coreMove s = some m ∧ (s.turns.head? ≠ some .host ∨ hostMove s = none)) ∨
    (hostMove s = some m ∧ (s.turns.head? = some .host ∨ coreMove s = none)) := by
  unfold nextMove at h
  split at h <;> rename_i ht <;> rcases Option.or_eq_some_iff.1 h with h1 | ⟨h1, h2⟩ <;> simp_all

/-- The host's turn, said by the scheduler. -/
theorem hostTurn_iff (s : State) (a : HostAction) (rest : List HostAction) :
    HostTurn s a rest ↔ nextMove s = some (.host a rest) := by
  constructor
  · rintro ⟨h1, h2, h3⟩
    exact nextMove_of_hostMove ((hostMove_eq_some_iff _ _).2 ⟨a, rest, rfl, h1, h2⟩) h3
  · intro h
    rcases nextMove_eq_some_cases h with ⟨hm, -⟩ | ⟨hm, ht⟩
    · rcases coreMove_cases s with ⟨p, -, -, hc⟩ | ⟨p, -, -, -, hc⟩ | ⟨-, hc⟩ <;> simp [hc] at hm
    · obtain ⟨a', rest', he, hs, ho⟩ := (hostMove_eq_some_iff _ _).1 hm
      cases he
      exact ⟨hs, ho, ht⟩

/-- The core's turn, said by the scheduler. -/
theorem coreTurn_iff (s : State) (p : Packet) : CoreTurn s p ↔ nextMove s = some (.execute p) := by
  constructor
  · rintro ⟨h1, h2, h3⟩
    exact nextMove_of_coreMove (by simp [coreMove, State.halted, h1, h2]) h3
  · intro h
    rcases nextMove_eq_some_cases h with ⟨hm, ht⟩ | ⟨hm, -⟩
    · rcases coreMove_cases s with ⟨q, h1, h2, hc⟩ | ⟨q, -, -, -, hc⟩ | ⟨-, hc⟩ <;> rw [hc] at hm <;> cases hm
      exact ⟨h1, h2, ht⟩
    · obtain ⟨_, _, he, -⟩ := (hostMove_eq_some_iff _ _).1 hm
      cases he

/-- The turn of a waiting packet, said by the scheduler. -/
theorem acceptTurn_iff (s : State) (p : Packet) : AcceptTurn s p ↔ nextMove s = some (.accept p) := by
  constructor
  · rintro ⟨h1, h2, h3, h4⟩
    exact nextMove_of_coreMove (by simp [coreMove, State.halted, h1, h2, h3]) h4
  · intro h
    rcases nextMove_eq_some_cases h with ⟨hm, ht⟩ | ⟨hm, -⟩
    · rcases coreMove_cases s with ⟨q, -, -, hc⟩ | ⟨q, h1, h2, h3, hc⟩ | ⟨-, hc⟩ <;> rw [hc] at hm <;> cases hm
      exact ⟨h1, h2, h3, ht⟩
    · obtain ⟨_, _, he, -⟩ := (hostMove_eq_some_iff _ _).1 hm
      cases he

/-! ## What a step does -/

/-- On the host's turn a step performs the host's next interaction. -/
theorem step_of_hostTurn {s : State} {a : HostAction} {rest : List HostAction} (h : HostTurn s a rest) :
    step s = .next ((s.nextTurn.setScript rest).hostAct a) := by
  simp [step, (hostTurn_iff s a rest).1 h, perform]

/-- On the core's turn a step executes the accepted packet. -/
theorem step_of_coreTurn {s : State} {p : Packet} (h : CoreTurn s p) : step s = executePacket p s.nextTurn := by
  simp [step, (coreTurn_iff s p).1 h, perform]

/-- On the turn of a waiting packet a step accepts it. -/
theorem step_of_acceptTurn {s : State} {p : Packet} (h : AcceptTurn s p) : step s = .next (s.nextTurn.accept p) := by
  simp [step, (acceptTurn_iff s p).1 h, perform]

/-- Everything a step can do when it answers a next state: the core executes its packet, the port accepts the waiting
packet, or the host makes its next interaction, each with one turn used up. -/
theorem step_cases {s t : State} (h : step s = .next t) :
    (∃ p, CoreTurn s p ∧ executePacket p s.nextTurn = .next t) ∨
    (∃ p, AcceptTurn s p ∧ t = s.nextTurn.accept p) ∨
    (∃ a rest, HostTurn s a rest ∧ t = (s.nextTurn.setScript rest).hostAct a) := by
  unfold step at h
  split at h
  case h_2 => cases h
  rename_i m hm
  cases m with
  | execute p => exact .inl ⟨p, (coreTurn_iff s p).2 hm, h⟩
  | accept p =>
    simp only [perform, Host.Outcome.next.injEq] at h
    exact .inr (.inl ⟨p, (acceptTurn_iff s p).2 hm, h.symm⟩)
  | host a rest =>
    simp only [perform, Host.Outcome.next.injEq] at h
    exact .inr (.inr ⟨a, rest, (hostTurn_iff s a rest).2 hm, h.symm⟩)

end Sys2Proof.Machine
end

