-- ==== Sys2Proof/Laws/PerInstr.lean ====
section
/-! SUPPORT. Statements about every command, one lemma per constructor. -/

namespace Sys2Proof.Laws

/-- The encoded header of a command carries its opcode, reserved bits 0, and 0 in every register field its format does
not use (30_encoding.md R60, R62, R65). -/
def EncodedFields.Statement (i : Instr) : Prop :=
  (hdrOpc (encode i).hdr).toNat = i.opcode ∧ hdrResv (encode i).hdr = 0 ∧
    unusedRegsZero i.format (encode i).hdr = true

/-- The fields of any header put together from an opcode and register numbers. -/
theorem headerOf_fields (opc : Nat) (rd rs1 rs2 rs3 : Reg) (ho : opc < 256) :
    (hdrOpc (headerOf opc rd rs1 rs2 rs3)).toNat = opc ∧ hdrResv (headerOf opc rd rs1 rs2 rs3) = 0 ∧
      hdrRd (headerOf opc rd rs1 rs2 rs3) = rd ∧ hdrRs1 (headerOf opc rd rs1 rs2 rs3) = rs1 ∧
      hdrRs2 (headerOf opc rd rs1 rs2 rs3) = rs2 ∧ hdrRs3 (headerOf opc rd rs1 rs2 rs3) = rs3 :=
  ⟨hdrOpc_headerOf _ _ _ _ _ ho, hdrResv_headerOf _ _ _ _ _ ho, hdrRd_headerOf _ _ _ _ _ ho,
    hdrRs1_headerOf _ _ _ _ _ ho, hdrRs2_headerOf _ _ _ _ _ ho, hdrRs3_headerOf _ _ _ _ _ ho⟩

theorem EncodedFields.nop : EncodedFields.Statement (.nop) := by
  simp [EncodedFields.Statement, encode, Instr.header, Instr.opcode, Instr.regFields, Instr.format, unusedRegsZero,
    Format.uses, headerOf_fields]

theorem EncodedFields.adc64 (rd rs1 rs2 : Reg) : EncodedFields.Statement (.adc64 rd rs1 rs2) := by
  simp [EncodedFields.Statement, encode, Instr.header, Instr.opcode, Instr.regFields, Instr.format, unusedRegsZero,
    Format.uses, headerOf_fields]

theorem EncodedFields.sbb64 (rd rs1 rs2 : Reg) : EncodedFields.Statement (.sbb64 rd rs1 rs2) := by
  simp [EncodedFields.Statement, encode, Instr.header, Instr.opcode, Instr.regFields, Instr.format, unusedRegsZero,
    Format.uses, headerOf_fields]

theorem EncodedFields.mulw64 (rd rs1 rs2 : Reg) : EncodedFields.Statement (.mulw64 rd rs1 rs2) := by
  simp [EncodedFields.Statement, encode, Instr.header, Instr.opcode, Instr.regFields, Instr.format, unusedRegsZero,
    Format.uses, headerOf_fields]

theorem EncodedFields.madc64 (rd rs1 rs2 rs3 : Reg) : EncodedFields.Statement (.madc64 rd rs1 rs2 rs3) := by
  simp [EncodedFields.Statement, encode, Instr.header, Instr.opcode, Instr.regFields, Instr.format, unusedRegsZero,
    Format.uses, headerOf_fields]

theorem EncodedFields.mov (rd rs1 : Reg) : EncodedFields.Statement (.mov rd rs1) := by
  simp [EncodedFields.Statement, encode, Instr.header, Instr.opcode, Instr.regFields, Instr.format, unusedRegsZero,
    Format.uses, headerOf_fields]

theorem EncodedFields.clr (rd : Reg) : EncodedFields.Statement (.clr rd) := by
  simp [EncodedFields.Statement, encode, Instr.header, Instr.opcode, Instr.regFields, Instr.format, unusedRegsZero,
    Format.uses, headerOf_fields]

theorem EncodedFields.one (rd : Reg) : EncodedFields.Statement (.one rd) := by
  simp [EncodedFields.Statement, encode, Instr.header, Instr.opcode, Instr.regFields, Instr.format, unusedRegsZero,
    Format.uses, headerOf_fields]

theorem EncodedFields.all1 (rd : Reg) : EncodedFields.Statement (.all1 rd) := by
  simp [EncodedFields.Statement, encode, Instr.header, Instr.opcode, Instr.regFields, Instr.format, unusedRegsZero,
    Format.uses, headerOf_fields]

theorem EncodedFields.lds64 (rd : Reg) (imm : BitVec 64) : EncodedFields.Statement (.lds64 rd imm) := by
  simp [EncodedFields.Statement, encode, Instr.header, Instr.opcode, Instr.regFields, Instr.format, unusedRegsZero,
    Format.uses, headerOf_fields]

theorem EncodedFields.ldu64 (rd : Reg) (imm : BitVec 64) : EncodedFields.Statement (.ldu64 rd imm) := by
  simp [EncodedFields.Statement, encode, Instr.header, Instr.opcode, Instr.regFields, Instr.format, unusedRegsZero,
    Format.uses, headerOf_fields]

theorem EncodedFields.wrflags (imm : BitVec 64) : EncodedFields.Statement (.wrflags imm) := by
  simp [EncodedFields.Statement, encode, Instr.header, Instr.opcode, Instr.regFields, Instr.format, unusedRegsZero,
    Format.uses, headerOf_fields]

theorem EncodedFields.neg (rd rs1 : Reg) : EncodedFields.Statement (.neg rd rs1) := by
  simp [EncodedFields.Statement, encode, Instr.header, Instr.opcode, Instr.regFields, Instr.format, unusedRegsZero,
    Format.uses, headerOf_fields]

theorem EncodedFields.add (rd rs1 rs2 : Reg) : EncodedFields.Statement (.add rd rs1 rs2) := by
  simp [EncodedFields.Statement, encode, Instr.header, Instr.opcode, Instr.regFields, Instr.format, unusedRegsZero,
    Format.uses, headerOf_fields]

theorem EncodedFields.sub (rd rs1 rs2 : Reg) : EncodedFields.Statement (.sub rd rs1 rs2) := by
  simp [EncodedFields.Statement, encode, Instr.header, Instr.opcode, Instr.regFields, Instr.format, unusedRegsZero,
    Format.uses, headerOf_fields]

theorem EncodedFields.addo (rd rs1 rs2 : Reg) : EncodedFields.Statement (.addo rd rs1 rs2) := by
  simp [EncodedFields.Statement, encode, Instr.header, Instr.opcode, Instr.regFields, Instr.format, unusedRegsZero,
    Format.uses, headerOf_fields]

theorem EncodedFields.subo (rd rs1 rs2 : Reg) : EncodedFields.Statement (.subo rd rs1 rs2) := by
  simp [EncodedFields.Statement, encode, Instr.header, Instr.opcode, Instr.regFields, Instr.format, unusedRegsZero,
    Format.uses, headerOf_fields]

theorem EncodedFields.cmp (rd rs1 rs2 : Reg) : EncodedFields.Statement (.cmp rd rs1 rs2) := by
  simp [EncodedFields.Statement, encode, Instr.header, Instr.opcode, Instr.regFields, Instr.format, unusedRegsZero,
    Format.uses, headerOf_fields]

theorem EncodedFields.mul (rd rs1 rs2 : Reg) : EncodedFields.Statement (.mul rd rs1 rs2) := by
  simp [EncodedFields.Statement, encode, Instr.header, Instr.opcode, Instr.regFields, Instr.format, unusedRegsZero,
    Format.uses, headerOf_fields]

theorem EncodedFields.mulo (rd rs1 rs2 : Reg) : EncodedFields.Statement (.mulo rd rs1 rs2) := by
  simp [EncodedFields.Statement, encode, Instr.header, Instr.opcode, Instr.regFields, Instr.format, unusedRegsZero,
    Format.uses, headerOf_fields]

theorem EncodedFields.pow (rd rs1 rs2 : Reg) : EncodedFields.Statement (.pow rd rs1 rs2) := by
  simp [EncodedFields.Statement, encode, Instr.header, Instr.opcode, Instr.regFields, Instr.format, unusedRegsZero,
    Format.uses, headerOf_fields]

theorem EncodedFields.quo (rd rs1 rs2 : Reg) : EncodedFields.Statement (.quo rd rs1 rs2) := by
  simp [EncodedFields.Statement, encode, Instr.header, Instr.opcode, Instr.regFields, Instr.format, unusedRegsZero,
    Format.uses, headerOf_fields]

theorem EncodedFields.rem (rd rs1 rs2 : Reg) : EncodedFields.Statement (.rem rd rs1 rs2) := by
  simp [EncodedFields.Statement, encode, Instr.header, Instr.opcode, Instr.regFields, Instr.format, unusedRegsZero,
    Format.uses, headerOf_fields]

theorem EncodedFields.udivrem (rd rd2 rs1 rs2 : Reg) : EncodedFields.Statement (.udivrem rd rd2 rs1 rs2) := by
  simp [EncodedFields.Statement, encode, Instr.header, Instr.opcode, Instr.regFields, Instr.format, unusedRegsZero,
    Format.uses, headerOf_fields]

theorem EncodedFields.shl (rd rs1 rs2 : Reg) : EncodedFields.Statement (.shl rd rs1 rs2) := by
  simp [EncodedFields.Statement, encode, Instr.header, Instr.opcode, Instr.regFields, Instr.format, unusedRegsZero,
    Format.uses, headerOf_fields]

theorem EncodedFields.shr (rd rs1 rs2 : Reg) : EncodedFields.Statement (.shr rd rs1 rs2) := by
  simp [EncodedFields.Statement, encode, Instr.header, Instr.opcode, Instr.regFields, Instr.format, unusedRegsZero,
    Format.uses, headerOf_fields]

theorem EncodedFields.sqrt (rd rs1 : Reg) : EncodedFields.Statement (.sqrt rd rs1) := by
  simp [EncodedFields.Statement, encode, Instr.header, Instr.opcode, Instr.regFields, Instr.format, unusedRegsZero,
    Format.uses, headerOf_fields]

end Sys2Proof.Laws
end

