-- ==== Sys2Proof/Laws/Values.lean ====
section
/-! SUPPORT. The value readings of 00_scope.md R8 to R10 as Lean's `toNat` and `toInt`. -/

namespace Sys2Proof.Machine

/-! ## Limbs -/

theorem limb_toNat (w : Word) (j : Nat) : (limb w j).toNat = w.toNat / 2 ^ (64 * j) % 2 ^ 64 := by
  simp [limb, Nat.shiftRight_eq_div_pow]

theorem limbOperand_zero (s : State) (r : Reg) : s.limbOperand r 0 = (s.reg r).toNat % 2 ^ 64 := by
  simp [State.limbOperand, limb]

theorem limbOperand_one (s : State) (r : Reg) : s.limbOperand r 1 = (s.reg r).toNat / 2 ^ 64 % 2 ^ 64 := by
  simp [State.limbOperand, limb_toNat]

theorem flagVal_eq_toNat (b : Bool) : flagVal b = b.toNat := by cases b <;> rfl

/-! ## Signed and unsigned readings -/

/-- `sval` and `uval` differ by a multiple of 2^256 (R9). -/
theorem exists_toInt_eq (w : Word) : ∃ k : Int, w.toInt = w.toNat + k * 2 ^ 256 := by
  rw [BitVec.toInt_eq_toNat_cond]; split
  · exact ⟨0, by omega⟩
  · exact ⟨-1, by push_cast; omega⟩

/-- Integers that differ by a multiple of 2^256 have one pattern (R9). -/
theorem ofInt_congr {x y : Int} (h : ∃ k : Int, x = y + k * 2 ^ 256) : BitVec.ofInt 256 x = BitVec.ofInt 256 y := by
  obtain ⟨k, rfl⟩ := h
  apply BitVec.eq_of_toInt_eq
  rw [BitVec.toInt_ofInt, BitVec.toInt_ofInt, mul_comm]
  exact Int.add_mul_bmod_self_left y (2 ^ 256) k

theorem bits256_eq_ofInt (n : Nat) : bits256 n = BitVec.ofInt 256 n := by rw [BitVec.ofInt_natCast]; rfl

theorem isNeg_iff (w : Word) : isNeg w = true ↔ w.toInt < 0 := by
  simp only [isNeg]
  rw [show w.getLsbD 255 = w.msb from rfl, BitVec.msb_eq_toInt]
  simp

theorem isNeg_eq_decide (w : Word) : isNeg w = decide (w.toInt < 0) := by
  by_cases h : w.toInt < 0
  · simp [h, (isNeg_iff w).2 h]
  · simp only [h, decide_false]; by_contra hh; exact h ((isNeg_iff w).1 (by simpa using hh))

/-- Two's-complement negation is negation of the signed value (R10). -/
theorem negate_eq_ofInt (w : Word) : negate w = BitVec.ofInt 256 (-w.toInt) := by
  obtain ⟨k, hk⟩ := exists_toInt_eq w
  have := w.isLt
  rw [ofInt_congr (x := -w.toInt) (y := ((2 ^ 256 - w.toNat : Nat) : Int))
    ⟨-k - 1, by rw [hk]; push_cast [Nat.le_of_lt this]; ring⟩]
  rw [negate, bits256, uval, ← BitVec.ofInt_natCast]

/-- The magnitude is that of the signed value (R10). -/
theorem absu_eq_natAbs (w : Word) : absu w = w.toInt.natAbs := by
  have hl := w.isLt
  have hlow := w.le_toInt
  have hc := BitVec.toInt_eq_toNat_cond w
  by_cases h : isNeg w = true
  · have h1 := (isNeg_iff w).1 h
    have e : w.toInt = w.toNat - 2 ^ 256 := by split at hc <;> omega
    have hm : (2 ^ 256 - w.toNat) % 2 ^ 256 = 2 ^ 256 - w.toNat := Nat.mod_eq_of_lt (by omega)
    simp only [absu, h, if_true, negate, bits256, uval, BitVec.toNat_ofNat]
    omega
  · have h1 : ¬ w.toInt < 0 := fun hh => h ((isNeg_iff w).2 hh)
    have e : w.toInt = w.toNat := by split at hc <;> omega
    simp only [absu, h, uval]
    simp; omega

/-- `sign` is the sign of the signed value (R10). -/
theorem sign_eq_sign (w : Word) : sign w = w.toInt.sign := by
  by_cases h : isNeg w = true
  · rw [Int.sign_eq_neg_one_of_neg ((isNeg_iff w).1 h)]; simp [sign, h]
  · have h1 : ¬ w.toInt < 0 := fun hh => h ((isNeg_iff w).2 hh)
    by_cases hz : w = 0
    · subst hz; decide
    · have h2 : w.toInt ≠ 0 := fun e => hz (BitVec.eq_of_toInt_eq (by rw [e]; rfl))
      have h3 : w.toNat ≠ 0 := fun e => hz (BitVec.eq_of_toNat_eq (by rw [e]; rfl))
      rw [Int.sign_eq_one_of_pos (by omega)]
      simp [sign, h, uval, h3]

theorem eq_minI256_iff (w : Word) : w = minI256 ↔ w.toInt = -2 ^ 255 := by
  constructor
  · rintro rfl; decide
  · intro h; apply BitVec.eq_of_toInt_eq; rw [h]; decide

end Sys2Proof.Machine
end

