-- ==== Sys2Proof/Laws/Window.lean ====
section
/-! SUPPORT. The host window byte by byte: what a byte written reads as, and that it leaves every other byte alone
(20_memory.md R41 to R43). -/

namespace Sys2Proof.Machine

theorem wordByte_toNat (w : Word) (k : Nat) : (wordByte w k).toNat = w.toNat / 2 ^ (248 - 8 * k) % 2 ^ 8 := by
  simp [wordByte, Nat.shiftRight_eq_div_pow]

/-- A register byte after a register byte is replaced. -/
theorem wordByte_setWordByte (w : Word) (k j : Nat) (b : Byte) (hk : k < 32) (hj : j < 32) :
    wordByte (setWordByte w k b) j = if j = k then b else wordByte w j := by
  apply BitVec.eq_of_getLsbD_eq
  intro i hi
  have mask : ∀ m, (0xFF : Word).getLsbD m = decide (m < 8) := by
    intro m
    have : (0xFF : Word) = (BitVec.allOnes 8).setWidth 256 := by decide
    rw [this]; simp only [BitVec.getLsbD_setWidth, BitVec.getLsbD_allOnes]
    by_cases h : m < 8 <;> simp [h]; omega
  have h1 : 248 - 8 * j + i < 256 := by omega
  simp only [wordByte, setWordByte, BitVec.getLsbD_extractLsb', BitVec.getLsbD_or, BitVec.getLsbD_and,
    BitVec.getLsbD_not, BitVec.getLsbD_shiftLeft, BitVec.getLsbD_setWidth, mask, hi, h1, decide_true, Bool.true_and]
  split_ifs with h
  · subst h
    have h2 : ¬ (248 - 8 * j + i < 248 - 8 * j) := by omega
    have h3 : 248 - 8 * j + i - (248 - 8 * j) = i := by omega
    simp [h2, h3, hi]
    intro hb; omega
  · simp only [BitVec.getLsbD_extractLsb', hi, decide_true, Bool.true_and]
    rcases Nat.lt_or_ge j k with hjk | hjk
    · have h2 : ¬ (248 - 8 * j + i < 248 - 8 * k) := by omega
      have h3 : ¬ (248 - 8 * j + i - (248 - 8 * k) < 8) := by omega
      have h4 : b.getLsbD (248 - 8 * j + i - (248 - 8 * k)) = false := BitVec.getLsbD_of_ge _ _ (by omega)
      simp [h2, h3, h4]
    · have h2 : 248 - 8 * j + i < 248 - 8 * k := by omega
      simp [h2]

theorem windowReg_val (a : Nat) (h : a < 512) : (windowReg a).val = a / 32 := by
  simp only [windowReg, Fin.ofNat_eq_cast, Fin.val_natCast]; omega

/-- A window byte after a window byte is written: that byte, and no other, reads as the byte written. -/
theorem windowByte_setWindowByte (s : State) (a c : Nat) (b : Byte) (ha : a < 512) (hc : c < 512) :
    (s.setWindowByte a b).windowByte c = if c = a then b else s.windowByte c := by
  unfold State.windowByte State.setWindowByte
  rw [reg_setReg]
  by_cases hr : windowReg c = windowReg a
  · have hv := congrArg Fin.val hr
    rw [windowReg_val _ ha, windowReg_val _ hc] at hv
    rw [if_pos hr, wordByte_setWordByte _ _ _ _ (by omega) (by omega)]
    by_cases h : c = a
    · subst h; simp
    · have : c % 32 ≠ a % 32 := by omega
      simp [h, this, hr]
  · have : c ≠ a := fun h => hr (by rw [h])
    rw [if_neg hr, if_neg this]

/-- A window byte after bytes are written: byte `c` of the write, else what it was. -/
theorem windowByte_setWindowBytes (data : List Byte) (s : State) (a c : Nat) (ha : a + data.length ≤ 512)
    (hc : c < 512) :
    (s.setWindowBytes a data).windowByte c =
      if a ≤ c ∧ c < a + data.length then data.getD (c - a) 0 else s.windowByte c := by
  induction data generalizing s a with
  | nil => simp [State.setWindowBytes]
  | cons b rest ih =>
    simp only [List.length_cons] at ha
    simp only [State.setWindowBytes, List.length_cons]
    rw [ih _ _ (by omega), windowByte_setWindowByte _ _ _ _ (by omega) hc]
    by_cases h : c = a
    · subst h; simp
    · by_cases h2 : a + 1 ≤ c ∧ c < a + 1 + rest.length
      · rw [if_pos h2, if_pos (by omega)]
        obtain ⟨m, rfl⟩ : ∃ m, c = a + 1 + m := ⟨c - a - 1, by omega⟩
        have e1 : a + 1 + m - (a + 1) = m := by omega
        have e2 : a + 1 + m - a = m + 1 := by omega
        rw [e1, e2]; simp
      · rw [if_neg h2, if_neg h, if_neg (by omega)]

/-- Byte `k` of what a window read answers. -/
theorem getElem?_windowBytes (s : State) (n a k : Nat) (h : k < n) :
    (s.windowBytes a n)[k]? = some (s.windowByte (a + k)) := by
  induction n generalizing a k with
  | zero => omega
  | succ n ih =>
    cases k with
    | zero => simp [State.windowBytes]
    | succ k =>
      simp only [State.windowBytes, List.getElem?_cons_succ]
      rw [ih _ _ (by omega)]; congr 2; omega

end Sys2Proof.Machine
end

