-- ==== Sys2Proof/Tests/Slice0.lean ====
section
/-! SUPPORT. Tests: the well-formedness smoke, decoding by words written out from the encoding tables, the spec's test
vectors (95_test_vectors.md, cited by number), and for every obligation with hypotheses a witness that meets them. -/

namespace Sys2Proof.Tests

open Sys2Proof Sys2Proof.Machine

/-! ## Helpers -/

/-- Reset, but for the registers and flags given. -/
def start (regs : List (Reg × Word)) (c v : Bool) : State :=
  regs.foldl (fun s x => s.setReg x.1 x.2) ((State.reset.setC c).setV v)

/-- The state after a step, if the step answers one. -/
def nextOf (o : Host.Outcome State Fault Refusal) : Option State :=
  match o with
  | .next t => some t
  | .fault _ => none
  | .refused _ => none

/-- One packet executed from `start`: the value of one register, C, V and FAULT after it. -/
def result (regs : List (Reg × Word)) (c v : Bool) (hdr : Header) (imm : BitVec 64) (r : Reg) :
    Option (Word × Bool × Bool × FaultCode) :=
  (nextOf (step ((start regs c v).withAccepted ⟨hdr, imm⟩))).map fun t => (t.reg r, t.c, t.v, t.fault)

/-- One packet executed from `start`: FAULT and FCMD after it, and whether every register and flag is as before. -/
def faultOf (regs : List (Reg × Word)) (c v : Bool) (hdr : Header) (imm : BitVec 64) :
    Option (FaultCode × BitVec 32 × Bool) :=
  (nextOf (step ((start regs c v).withAccepted ⟨hdr, imm⟩))).map fun t =>
    (t.fault, t.fcmd, decide (t.regs = (start regs c v).regs ∧ t.c = c ∧ t.v = v))

/-- It is the host's turn, and its script is as given. -/
def hostState (s : State) (script : List HostAction) : State :=
  { s with script := script, turns := [.host, .host] }

/-- What the host gets back from one interaction. -/
def replyTo (s : State) (a : HostAction) : Option Reply :=
  (nextOf (step (hostState s [a]))).bind fun t => t.reply

/-- Halted by vector V100: ZERO_DIVISION of `quo r3, r1, r2`. -/
def halted : State := { State.reset with fault := .zeroDivision, fcmd := 0x00021340 }

/-- ADD is in progress. -/
def busy : State := { State.reset with inFlight := some ⟨0x00021321, 0⟩ }

/-! ## Well-formedness -/

theorem test_wellFormed_wrflags : (Instr.wrflags 3).WellFormed = true ∧ (Instr.wrflags 4).WellFormed = false := by
  decide

/-- The largest immediate the check must refuse too. -/
theorem test_wellFormed_wrflags_top : (Instr.wrflags 0xFFFFFFFFFFFFFFFF).WellFormed = false := by decide

/-! ## Decoding: headers written out field by field, `resv ++ rs3 ++ rs2 ++ rs1 ++ rd ++ opc` (R60), opcodes from R65 -/

theorem test_decode_limb :
    decode ⟨0#8 ++ 0#4 ++ 2#4 ++ 1#4 ++ 3#4 ++ 0x01#8, 0⟩ = .command (.adc64 3 1 2) ∧
    decode ⟨0#8 ++ 0#4 ++ 2#4 ++ 1#4 ++ 3#4 ++ 0x02#8, 0⟩ = .command (.sbb64 3 1 2) ∧
    decode ⟨0#8 ++ 0#4 ++ 2#4 ++ 1#4 ++ 3#4 ++ 0x03#8, 0⟩ = .command (.mulw64 3 1 2) ∧
    decode ⟨0#8 ++ 3#4 ++ 2#4 ++ 1#4 ++ 4#4 ++ 0x04#8, 0⟩ = .command (.madc64 4 1 2 3) := by decide

theorem test_decode_load :
    decode ⟨0#8 ++ 0#4 ++ 0#4 ++ 0#4 ++ 0#4 ++ 0x00#8, 0⟩ = .command .nop ∧
    decode ⟨0#8 ++ 0#4 ++ 0#4 ++ 1#4 ++ 2#4 ++ 0x10#8, 0⟩ = .command (.mov 2 1) ∧
    decode ⟨0#8 ++ 0#4 ++ 0#4 ++ 0#4 ++ 4#4 ++ 0x11#8, 0⟩ = .command (.clr 4) ∧
    decode ⟨0#8 ++ 0#4 ++ 0#4 ++ 0#4 ++ 4#4 ++ 0x12#8, 0⟩ = .command (.one 4) ∧
    decode ⟨0#8 ++ 0#4 ++ 0#4 ++ 0#4 ++ 4#4 ++ 0x13#8, 0⟩ = .command (.all1 4) := by decide

theorem test_decode_load_imm :
    decode ⟨0#8 ++ 0#4 ++ 0#4 ++ 0#4 ++ 1#4 ++ 0x14#8, 0xFFFFFFFFFFFFFFF9⟩ = .command (.lds64 1 (-7)) ∧
    decode ⟨0#8 ++ 0#4 ++ 0#4 ++ 0#4 ++ 2#4 ++ 0x15#8, 0xFF⟩ = .command (.ldu64 2 255) ∧
    decode ⟨0#8 ++ 0#4 ++ 0#4 ++ 0#4 ++ 0#4 ++ 0x16#8, 1⟩ = .command (.wrflags 1) := by decide

theorem test_decode_addsub :
    decode ⟨0#8 ++ 0#4 ++ 0#4 ++ 1#4 ++ 2#4 ++ 0x20#8, 0⟩ = .command (.neg 2 1) ∧
    decode ⟨0#8 ++ 0#4 ++ 2#4 ++ 1#4 ++ 3#4 ++ 0x21#8, 0⟩ = .command (.add 3 1 2) ∧
    decode ⟨0#8 ++ 0#4 ++ 2#4 ++ 1#4 ++ 3#4 ++ 0x22#8, 0⟩ = .command (.sub 3 1 2) ∧
    decode ⟨0#8 ++ 0#4 ++ 2#4 ++ 1#4 ++ 3#4 ++ 0x23#8, 0⟩ = .command (.addo 3 1 2) ∧
    decode ⟨0#8 ++ 0#4 ++ 2#4 ++ 1#4 ++ 3#4 ++ 0x24#8, 0⟩ = .command (.subo 3 1 2) ∧
    decode ⟨0#8 ++ 0#4 ++ 2#4 ++ 1#4 ++ 3#4 ++ 0x25#8, 0⟩ = .command (.cmp 3 1 2) := by decide

theorem test_decode_mul :
    decode ⟨0#8 ++ 0#4 ++ 2#4 ++ 1#4 ++ 3#4 ++ 0x30#8, 0⟩ = .command (.mul 3 1 2) ∧
    decode ⟨0#8 ++ 0#4 ++ 2#4 ++ 1#4 ++ 3#4 ++ 0x31#8, 0⟩ = .command (.mulo 3 1 2) ∧
    decode ⟨0#8 ++ 0#4 ++ 2#4 ++ 1#4 ++ 3#4 ++ 0x32#8, 0⟩ = .command (.pow 3 1 2) := by decide

theorem test_decode_div :
    decode ⟨0#8 ++ 0#4 ++ 2#4 ++ 1#4 ++ 3#4 ++ 0x40#8, 0⟩ = .command (.quo 3 1 2) ∧
    decode ⟨0#8 ++ 0#4 ++ 2#4 ++ 1#4 ++ 3#4 ++ 0x41#8, 0⟩ = .command (.rem 3 1 2) ∧
    decode ⟨0#8 ++ 6#4 ++ 2#4 ++ 1#4 ++ 5#4 ++ 0x42#8, 0⟩ = .command (.udivrem 5 6 1 2) := by decide

theorem test_decode_shift_sqrt :
    decode ⟨0#8 ++ 0#4 ++ 2#4 ++ 1#4 ++ 3#4 ++ 0x50#8, 0⟩ = .command (.shl 3 1 2) ∧
    decode ⟨0#8 ++ 0#4 ++ 2#4 ++ 1#4 ++ 3#4 ++ 0x51#8, 0⟩ = .command (.shr 3 1 2) ∧
    decode ⟨0#8 ++ 0#4 ++ 0#4 ++ 1#4 ++ 2#4 ++ 0x60#8, 0⟩ = .command (.sqrt 2 1) := by decide

/-- Each condition of R66, from V142 to V150. -/
theorem test_decode_illegal :
    decode ⟨0x00000005, 0⟩ = .illegal .undefinedOpcode ∧ decode ⟨0x000000FF, 0⟩ = .illegal .undefinedOpcode ∧
    decode ⟨0x01021321, 0⟩ = .illegal .reservedHeader ∧ decode ⟨0x00121321, 0⟩ = .illegal .unusedRegister ∧
    decode ⟨0x00021321, 1⟩ = .illegal .unusedImmediate ∧ decode ⟨0x00000016, 4⟩ = .illegal .unusedImmediate ∧
    decode ⟨0x00000100, 0⟩ = .illegal .unusedRegister ∧ decode ⟨0x00001114, 5⟩ = .illegal .unusedRegister := by
  decide

/-- The table word of `lds64 r1, -7` (R71): 96 bits, the immediate above the header. -/
theorem test_tableWord : decodeTableWord 96 0xFFFFFFFFFFFFFFF900000114 = some (.lds64 1 (-7)) := by decide

/-- `add r0, r0, r0` placed by `withFetchWord` is what the first step after reset executes. -/
theorem test_withFetchWord :
    (nextOf (step (State.reset.withFetchWord 96 0x21))).map (fun t => (t.reply, t.busy)) = some (some .done, false) := by
  decide

/-! ## Limb primitives -/

theorem test_adc64_V2 : result [(1, 18446744073709551615), (2, 18446744073709551615)] true false 0x00021301 0 3 =
    some (18446744073709551615, true, false, .none) := by decide

/-- The upper limbs are ignored, and the destination is a source. -/
theorem test_adc64_V4 :
    result [(1, 0x50000000000000007), (2, 0x0000000000000009000000000000000000000000000000000000000000000008)]
      false false 0x00021101 0 1 = some (15, false, false, .none) := by decide

theorem test_sbb64_V6 : result [(2, 1)] false false 0x00021302 0 3 =
    some (18446744073709551615, true, false, .none) := by decide

theorem test_sbb64_V8 : result [(2, 18446744073709551615)] true false 0x00021302 0 3 =
    some (0, true, false, .none) := by decide

theorem test_mulw64_V10 : result [(1, 18446744073709551615), (2, 18446744073709551615)] false false 0x00021303 0 3 =
    some (0xFFFFFFFFFFFFFFFE0000000000000001, false, false, .none) := by decide

theorem test_madc64_V13 :
    result [(1, 18446744073709551615), (2, 18446744073709551615), (3, 0xFFFFFFFFFFFFFFFFFFFFFFFFFFFFFFFF)]
      false false 0x00321404 0 4 = some (0xFFFFFFFFFFFFFFFFFFFFFFFFFFFFFFFF, false, false, .none) := by decide

/-- Limb 2 of `x[rs3]` is ignored, and the destination is the third source. -/
theorem test_madc64_V15 :
    result [(1, 2), (2, 3), (3, 0x900000000000000000000000000000004)] false false 0x00321304 0 3 =
      some (10, false, false, .none) := by decide

/-! ## Register load and flags -/

theorem test_nop_V16 : result [(1, 5)] false false 0 0 1 = some (5, false, false, .none) := by decide

theorem test_mov_V17 : result [(1, minI256)] false false 0x00001210 0 2 = some (minI256, false, false, .none) := by
  decide

theorem test_clr_V18 : result [(4, 123)] false false 0x00000411 0 4 = some (0, false, false, .none) := by decide

theorem test_one_V19 : result [] false false 0x00000412 0 4 = some (1, false, false, .none) := by decide

theorem test_all1_V20 : result [] false false 0x00000413 0 4 = some (-1, false, false, .none) := by decide

theorem test_lds64_V22 : result [] false false 0x00000114 0x8000000000000000 1 =
    some (-9223372036854775808, false, false, .none) := by decide

theorem test_ldu64_V23 : result [] false false 0x00000115 0xFFFFFFFFFFFFFFFF 1 =
    some (18446744073709551615, false, false, .none) := by decide

theorem test_wrflags_V24 : result [] false false 0x00000016 3 0 = some (0, true, true, .none) := by decide

/-- The two bits are not swapped: `setc` sets C and clears V (R70). -/
theorem test_wrflags_setc : result [] false true 0x00000016 1 0 = some (0, true, false, .none) := by decide

/-! ## Negation, addition, subtraction, compare -/

theorem test_neg_V28 : result [(1, minI256)] false false 0x00001220 0 2 = some (minI256, false, false, .none) := by
  decide

theorem test_neg_V27 : result [(1, 1)] false false 0x00001220 0 2 = some (-1, false, false, .none) := by decide

theorem test_add_V30 : result [(1, maxI256), (2, 1)] false false 0x00021321 0 3 =
    some (minI256, false, false, .none) := by decide

/-- ADD leaves both flags alone. -/
theorem test_add_V33 : result [(1, -1), (2, 1)] true true 0x00021321 0 3 = some (0, true, true, .none) := by decide

theorem test_sub_V34 : result [(2, 1)] false false 0x00021322 0 3 = some (-1, false, false, .none) := by decide

theorem test_sub_V36 : result [(1, 0x10000000000000000), (2, 1)] false false 0x00021322 0 3 =
    some (18446744073709551615, false, false, .none) := by decide

theorem test_addo_V39 : result [(1, minI256), (2, -1)] false false 0x00021323 0 3 =
    some (maxI256, false, true, .none) := by decide

theorem test_addo_V42 : result [(1, maxI256), (2, minI256)] false false 0x00021323 0 3 =
    some (-1, false, false, .none) := by decide

theorem test_subo_V43 : result [(2, minI256)] false false 0x00021324 0 3 = some (minI256, false, true, .none) := by
  decide

theorem test_subo_V47 : result [(1, -1), (2, maxI256)] false false 0x00021324 0 3 =
    some (minI256, false, false, .none) := by decide

theorem test_cmp_V50 : result [(1, minI256), (2, maxI256)] false false 0x00021325 0 3 =
    some (-1, false, false, .none) := by decide

theorem test_cmp_V52 : result [(1, -1), (2, -2)] false false 0x00021325 0 3 = some (1, false, false, .none) := by
  decide

/-! ## Multiplication and exponentiation -/

theorem test_mul_V62 : result [(1, -3), (2, 5)] false false 0x00021330 0 3 = some (-15, false, false, .none) := by
  decide

theorem test_mul_V63 : result [(1, 18446744073709551615), (2, 18446744073709551615)] false false 0x00021330 0 3 =
    some (0xFFFFFFFFFFFFFFFE0000000000000001, false, false, .none) := by decide

theorem test_mulo_V65 : result [(1, minI256), (2, 1)] false true 0x00021331 0 3 =
    some (minI256, false, false, .none) := by decide

/-- The representable −2^255 is flagged (90_conflicts.md C2). -/
theorem test_mulo_V67 :
    result [(1, 0xC000000000000000000000000000000000000000000000000000000000000000), (2, 2)] false false 0x00021331 0 3 =
      some (minI256, false, true, .none) := by decide

theorem test_pow_V82 : result [(1, 10), (2, 78)] false false 0x00021332 0 3 =
    some (0xA2DBF142DFCC7AB6E3569326C7843372A9F4D2505E3A40000000000000000000, false, false, .none) := by
  decide +kernel

/-- The exponent is unsigned: 2^255. -/
theorem test_pow_V83 : result [(1, 3), (2, minI256)] false false 0x00021332 0 3 = some (1, false, false, .none) := by
  decide +kernel

/-! ## Division -/

theorem test_quo_V86 : result [(1, -7), (2, 2)] false false 0x00021340 0 3 = some (-3, false, false, .none) := by
  decide

theorem test_quo_V100 : faultOf [(1, 123)] false false 0x00021340 0 = some (.zeroDivision, 0x00021340, true) := by
  decide

theorem test_rem_V89 : result [(1, 7), (2, -2)] false false 0x00021341 0 3 = some (1, false, false, .none) := by
  decide

theorem test_rem_V101 : faultOf [] false false 0x00021341 0 = some (.zeroDivision, 0x00021341, true) := by decide

theorem test_udivrem_V103 : result [(1, 0x100000000000000000000000000000005), (2, 0x10000000000000000)]
    false false 0x00621542 0 6 = some (5, false, false, .none) := by decide

/-- Program P2 step 8: `−7` divided unsigned by 2 leaves the quotient `2^255 − 4` in `rd`. -/
theorem test_udivrem_P2 : result [(1, -7), (2, 2)] false false 0x00821742 0 7 =
    some (0x7FFFFFFFFFFFFFFFFFFFFFFFFFFFFFFFFFFFFFFFFFFFFFFFFFFFFFFFFFFFFFFC, false, false, .none) := by decide

/-! ## Shifts and square root -/

theorem test_shl_V116 : result [(1, 5), (2, -1)] false false 0x00021350 0 3 = some (0, false, false, .none) := by
  decide

theorem test_shl_V117 : result [(1, 3)] false false 0x00011150 0 1 = some (24, false, false, .none) := by decide

theorem test_shr_V118 : result [(1, -11111), (2, 255)] false false 0x00021351 0 3 =
    some (-1, false, false, .none) := by decide

theorem test_shr_V119 : result [(1, -3), (2, 1)] false false 0x00021351 0 3 = some (-2, false, false, .none) := by
  decide

theorem test_sqrt_V138 : result [(1, maxI256)] false false 0x00001260 0 2 =
    some (0xB504F333F9DE6484597D89B3754ABE9F, false, false, .none) := by decide +kernel

theorem test_sqrt_V140 : faultOf [(1, minI256)] false false 0x00001260 0 =
    some (.negativeArgument, 0x00001260, true) := by decide

/-! ## Illegal packets -/

/-- Illegal wins over a zero divisor. -/
theorem test_illegal_V150 : faultOf [(1, 1)] false false 0x00121340 0 = some (.illegalCommand, 0x00121340, true) := by
  decide

/-! ## Host window, control space, reset -/

theorem test_window_W2 :
    (nextOf (step (hostState (start [(1, -7)] false false)
      [.windowWrite 56 [0x11, 0x22, 0x33, 0x44, 0x55, 0x66, 0x77, 0x88]]))).map (fun t => t.reg 1) =
      some 0xFFFFFFFFFFFFFFFFFFFFFFFFFFFFFFFFFFFFFFFFFFFFFFFF1122334455667788 := by decide

theorem test_window_W3_W4 :
    replyTo (start [(1, 0xFFFFFFFFFFFFFFFFFFFFFFFFFFFFFFFFFFFFFFFFFFFFFFFF1122334455667788)] false false)
        (.windowRead 32 1) = some (.windowRead .ok [0xFF]) ∧
    replyTo (start [(1, 0xFFFFFFFFFFFFFFFFFFFFFFFFFFFFFFFFFFFFFFFFFFFFFFFF1122334455667788)] false false)
        (.windowRead 63 1) = some (.windowRead .ok [0x88]) := by decide

theorem test_window_W7_W8 :
    replyTo State.reset (.windowWrite 33 [0, 0, 0, 0, 0, 0, 0, 1]) = some (.windowWrite .errAlign) ∧
    replyTo State.reset (.windowWrite 512 [0]) = some (.windowWrite .errRange) := by decide

theorem test_window_W9_W10_W11 :
    replyTo State.reset (.windowRead 0 4) = some (.windowRead .errSize [0, 0, 0, 0]) ∧
    replyTo State.reset (.windowRead 600 3) = some (.windowRead .errSize [0, 0, 0]) ∧
    replyTo State.reset (.windowRead 513 8) = some (.windowRead .errRange [0, 0, 0, 0, 0, 0, 0, 0]) := by decide

theorem test_window_W12_W13 :
    replyTo busy (.windowRead 64 32) = some (.windowRead .errBusy (List.replicate 32 0)) ∧
    replyTo busy (.windowRead 65 8) = some (.windowRead .errAlign (List.replicate 8 0)) := by decide

theorem test_control_W14_W15 :
    replyTo halted (.controlRead 0) = some (.controlRead .ok 0x00000018) ∧
    replyTo halted (.controlRead 1) = some (.controlRead .ok 0x00021340) := by decide

theorem test_control_W16_W17 :
    replyTo State.reset (.controlWrite 0 5) = some (.controlWrite .errRo) ∧
    replyTo State.reset (.controlRead 2) = some (.controlRead .errRange 0) := by decide

theorem test_window_W18 : replyTo halted (.windowRead 96 32) = some (.windowRead .ok (List.replicate 32 0)) := by decide

theorem test_reset_W19 :
    (nextOf (step (hostState halted [.reset false]))).map (fun t => (observe t, t.statusWord)) =
      some (observe State.reset, 0) := by decide

/-- Program P4 step 5: a packet offered while halted waits. -/
theorem test_port_halted :
    (nextOf (step (hostState halted [.offer ⟨0x00000512, 0⟩]))).map (fun t => (t.offered, t.busy)) =
      some (some ⟨0x00000512, 0⟩, false) := by decide

/-! ## Assembler (R69 to R71) -/

theorem test_assemble_R71 :
    assembleLine "add r3, r1, r2" = some [.add 3 1 2] ∧ assembleLine "MADC64 r4, r1, r2, r3" = some [.madc64 4 1 2 3] ∧
    assembleLine "udivrem r5, r6, r1, r2 ; note" = some [.udivrem 5 6 1 2] ∧
    assembleLine "lds64 r1, -7" = some [.lds64 1 (-7)] ∧ assembleLine "ldu64 r2, 0xFF" = some [.ldu64 2 255] := by
  decide

theorem test_assemble_refused :
    assembleLine "wrflags 4" = none ∧ assembleLine "clr r16" = none ∧
    assembleLine "lds64 r1, 9223372036854775808" = none ∧ assembleLine "ldu64 r1, -1" = none := by decide

theorem test_assemble_pseudo :
    assembleLine "ldmin r1, r9" = some [.one 1, .ldu64 9 255, .shl 1 1 9] ∧
    assembleLine "li r2, 9223372036854775808" = some [.ldu64 2 0x8000000000000000] ∧
    assembleLine "sar r3, r1, r2" = some [.shr 3 1 2] ∧ assembleLine "setc" = some [.wrflags 1] := by decide

/-! ## Witnesses: for each obligation with hypotheses, concrete inputs that meet them -/

/-- ADD of x1, x2 is in progress and it is not the host's turn, or it is and the host has nothing to do. -/
theorem test_witness_coreTurn :
    CoreTurn busy ⟨0x00021321, 0⟩ ∧ CoreTurn (hostState busy []) ⟨0x00021321, 0⟩ ∧
    decode ⟨0x00021321, 0⟩ = .command (.add 3 1 2) := by
  unfold CoreTurn; decide

/-- With no turn given, or the core's, the host moves where the core has no move, as after reset. -/
theorem test_witness_hostTurn_no_core_move :
    HostTurn { State.reset with script := [.windowRead 0 1] } (.windowRead 0 1) [] ∧
    HostTurn { halted with script := [.controlRead 0], turns := [.core] } (.controlRead 0) [] ∧
    HostTurn { State.reset with script := [.reset true] } (.reset true) [] := by
  unfold HostTurn; decide

/-- The three words of a packet while the port is free and while a command is in progress, and two words. -/
theorem test_witness_PacketOverBusWords :
    HostTurn (hostState State.reset [.offerWords [0x114, 7, 0]]) (.offerWords [0x114, 7, 0]) [] ∧
    HostTurn (hostState busy [.offerWords [0x114, 7, 0]]) (.offerWords [0x114, 7, 0]) [] ∧
    HostTurn (hostState State.reset [.offerWords [0x114, 7]]) (.offerWords [0x114, 7]) [] := by
  unfold HostTurn; decide

/-- R61's word order in a step: the low half of the immediate comes first. -/
theorem test_offerWords :
    (nextOf (step (hostState State.reset [.offerWords [0x114, 0xFFFFFFF9, 1]]))).map (fun t => t.inFlight) =
      some (some ⟨0x114, 0x1FFFFFFF9⟩) := by decide

theorem test_witness_DecodeOfEncode :
    (Instr.wrflags 0).WellFormed = true ∧ (Instr.wrflags 3).WellFormed = true ∧
    (Instr.udivrem 15 0 15 0).WellFormed = true := by decide

/-- A legal and an illegal packet whose opcodes select a command. -/
theorem test_witness_LegalPacketsMeetTheirMask :
    selectCommand ⟨0x00FFFF42, 0⟩ = some (.udivrem 15 15 15 15) ∧ decode ⟨0x00FFFF42, 0⟩ = .command (.udivrem 15 15 15 15) ∧
    selectCommand ⟨0x00100000, 0⟩ = some .nop ∧ decode ⟨0x00100000, 0⟩ = .illegal .unusedRegister := by decide

/-- An undefined opcode at every end of R66's ranges. -/
theorem test_witness_UndefinedOpcode :
    ∀ o ∈ [0x05, 0x0F, 0x17, 0x1F, 0x26, 0x2F, 0x33, 0x3F, 0x43, 0x4F, 0x52, 0x5F, 0x61, 0xFF], UndefinedOpcode o := by
  unfold UndefinedOpcode; decide

/-- One packet under each further condition of R66. -/
theorem test_witness_IllegalPacket :
    ∀ p ∈ [(⟨0x01000021, 0⟩ : Packet), ⟨0x80000000, 0⟩, ⟨0x00000100, 0⟩, ⟨0x00000F16, 0⟩, ⟨0x00001111, 0⟩, ⟨0x00010010, 0⟩,
      ⟨0x00F00060, 0⟩, ⟨0x00100021, 0⟩, ⟨0x00000021, 0x8000000000000000⟩, ⟨0x00000016, 4⟩], IllegalPacket p := by
  unfold IllegalPacket UndefinedOpcode; decide

theorem test_witness_IllegalPacketsFault :
    CoreTurn { State.reset with inFlight := some ⟨0x01000021, 0⟩ } ⟨0x01000021, 0⟩ ∧ IllegalPacket ⟨0x01000021, 0⟩ := by
  unfold CoreTurn IllegalPacket UndefinedOpcode; decide

theorem test_witness_StepStops :
    step State.reset = .fault .idle ∧ step halted = .fault .halted := ⟨rfl, rfl⟩

/-- A packet offered while the port is free, while it is busy, and while the core is halted. -/
theorem test_witness_PortTakesOnePacket_offer :
    (HostTurn (hostState State.reset [.offer ⟨0, 0⟩]) (.offer ⟨0, 0⟩) [] ∧ State.reset.busy = false ∧
      State.reset.halted = false) ∧
    (HostTurn (hostState busy [.offer ⟨0, 0⟩]) (.offer ⟨0, 0⟩) [] ∧ busy.busy = true) ∧
    (HostTurn (hostState halted [.offer ⟨0, 0⟩]) (.offer ⟨0, 0⟩) [] ∧ halted.halted = true) := by
  unfold HostTurn; decide

/-- A waiting packet with the port free, and a step while a command is in progress. -/
theorem test_witness_PortTakesOnePacket_wait :
    AcceptTurn { State.reset with offered := some ⟨0, 0⟩ } ⟨0, 0⟩ ∧
    AcceptTurn { hostState State.reset [.offer ⟨1, 0⟩] with offered := some ⟨0, 0⟩ } ⟨0, 0⟩ ∧
    (∃ t, busy.inFlight = some ⟨0x00021321, 0⟩ ∧ step busy = .next t) :=
  ⟨by unfold AcceptTurn; decide, by unfold AcceptTurn; decide, ⟨_, rfl, rfl⟩⟩

/-- A host access comes before a packet that waits at the free port (log 24), and the other order is there too. -/
theorem test_port_access_overtakes :
    (nextOf (step { hostState State.reset [.windowWrite 0 [7]] with offered := some ⟨0, 0⟩ })).map
      (fun t => (t.reply, t.offered)) = some (some (.windowWrite .ok), some ⟨0, 0⟩) ∧
    (nextOf (step { State.reset with script := [.windowWrite 0 [7]], offered := some ⟨0, 0⟩ })).map
      (fun t => t.inFlight) = some (some ⟨0, 0⟩) := by decide

theorem test_witness_HaltedCore :
    halted.halted = true ∧ halted.script = [] ∧ halted.busy = false ∧
    HostTurn (hostState halted [.windowRead 511 1]) (.windowRead 511 1) [] ∧
    HostTurn (hostState halted [.windowWrite 504 [1, 2, 3, 4, 5, 6, 7, 8]]) (.windowWrite 504 [1, 2, 3, 4, 5, 6, 7, 8]) [] ∧
    HostTurn (hostState halted [.controlRead 0]) (.controlRead 0) [] ∧
    HostTurn (hostState halted [.controlRead 1]) (.controlRead 1) [] := by
  unfold HostTurn; decide

theorem test_witness_FaultStaysUntilReset :
    ∃ t, halted.fault ≠ .none ∧ step (hostState halted [.controlRead 0]) = .next t ∧
      ¬ ResetTurn (hostState halted [.controlRead 0]) :=
  ⟨_, by decide, rfl, fun ⟨_, _, h, _⟩ => by simp [hostState] at h⟩

/-- Reset while BUSY, and while halted with a packet waiting. -/
theorem test_witness_ResetAtAnyTime :
    HostTurn (hostState busy [.reset true]) (.reset true) [] ∧
    HostTurn (hostState { halted with offered := some ⟨0, 0⟩ } [.reset false]) (.reset false) [] := by
  unfold HostTurn; decide

/-- The invariant of a machine that runs, of one halted by a zero divisor, and of one halted by an illegal packet. -/
theorem test_witness_EveryStepKeeps :
    (∃ t, Inv busy ∧ step busy = .next t) ∧ (∃ t, Inv halted ∧ step (hostState halted [.reset true]) = .next t) ∧
    Inv { halted with fault := .illegalCommand } :=
  ⟨⟨_, ⟨by decide, rfl⟩, rfl⟩, ⟨_, ⟨by decide, .inl ⟨3, 1, 2, by decide⟩⟩, rfl⟩,
    ⟨by decide, 1, .unusedImmediate, by decide⟩⟩

/-- A header of LDS64 that meets its mask is legal with every immediate (R66), so FCMD never holds it with
ILLEGAL_COMMAND. -/
theorem test_invariant_excludes_lds64 : ¬ Inv { halted with fault := .illegalCommand, fcmd := 0x114 } := by
  rintro ⟨-, imm, why, h⟩
  have e : decode ⟨0x114, imm⟩ = .command (.lds64 1 imm) :=
    (decode_eq_command_iff _ _).2
      ⟨show commandOf (hdrOpc 0x114).toNat (hdrRd 0x114) (hdrRs1 0x114) (hdrRs2 0x114) (hdrRs3 0x114) imm = _ by
          rw [show (hdrOpc 0x114).toNat = 0x14 by decide, show hdrRd 0x114 = 1 by decide]; rfl,
        show hdrResv 0x114 = 0 by decide, show unusedRegsZero .i 0x114 = true by decide,
        by simp [unusedImmZero, Instr.format, Format.uses]; omega⟩
  have h' : decode ⟨0x114, imm⟩ = .illegal why := h
  rw [e] at h'; cases h'

/-- The invariant leaves out a header that cannot raise the fault: QUO's for NEGATIVE_ARGUMENT. -/
theorem test_invariant_excludes :
    ¬ Inv { halted with fault := .negativeArgument } := by
  rintro ⟨-, rd, rs1, h⟩
  have e : decode ⟨0x00021340, 0⟩ = .command (.quo 3 1 2) := by decide
  have h' : decode ⟨0x00021340, 0⟩ = .command (.sqrt rd rs1) := h
  rw [e] at h'; simp at h'

theorem test_witness_CommandsFault :
    faultCondition (.quo 3 1 2) State.reset = .zeroDivision ∧
    faultCondition (.sqrt 2 1) (start [(1, minI256)] false false) = .negativeArgument ∧
    faultCondition (.sqrt 2 1) State.reset = .none ∧ faultCondition .nop State.reset = .none := by decide

/-- A zero divisor, also where the divisor's register is a destination. -/
theorem test_witness_ZeroDivisor : State.reset.reg 2 = 0 ∧ destinations (.udivrem 2 2 1 2) = [2, 2] := by decide

theorem test_witness_NegativeRoot :
    ((start [(1, -1)] false false).reg 1).toInt < 0 ∧ ((start [(1, minI256)] false false).reg 1).toInt < 0 := by decide

/-- ADD writes x3 and not x15, whose last byte lies at the top of the window. -/
theorem test_witness_CommandsWriteOnly :
    ∃ t, exec (.add 3 1 2) busy = .next t ∧ (15 : Reg) ∉ destinations (.add 3 1 2) ∧
      ∀ r ∈ destinations (.add 3 1 2), 511 < 32 * r.val ∨ 32 * r.val + 32 ≤ 511 :=
  ⟨_, rfl, by decide, by decide⟩

/-- WRFLAGS changes both flags, also while a reset is the host's next interaction, and reset changes both. -/
theorem test_witness_FlagsChange :
    (∃ t, step { State.reset.withAccepted ⟨0x00000016, 3⟩ with script := [.reset true] } = .next t ∧
      t.c ≠ State.reset.c ∧ t.v ≠ State.reset.v) ∧
    (∃ t, step (hostState (start [] true true) [.reset true]) = .next t ∧ t.c ≠ true ∧ t.v ≠ true) :=
  ⟨⟨_, rfl, by decide, by decide⟩, ⟨_, rfl, by decide, by decide⟩⟩

/-- A register changed by a command, by a window write, and by reset. -/
theorem test_witness_RegistersChange :
    (∃ t, step (State.reset.withAccepted ⟨0x00000F12, 0⟩) = .next t ∧
      t.reg 15 ≠ (State.reset.withAccepted ⟨0x00000F12, 0⟩).reg 15) ∧
    (∃ t, step (hostState State.reset [.windowWrite 511 [1]]) = .next t ∧
      t.reg 15 ≠ (hostState State.reset [.windowWrite 511 [1]]).reg 15) ∧
    (∃ t, step (hostState (start [(15, 1)] false false) [.reset true]) = .next t ∧
      t.reg 15 ≠ (hostState (start [(15, 1)] false false) [.reset true]).reg 15) :=
  ⟨⟨_, rfl, by decide⟩, ⟨_, rfl, by decide⟩, ⟨_, rfl, by decide⟩⟩

theorem test_witness_NothingChangesWhileBusy :
    ∃ t, step (hostState busy [.windowWrite 0 [1]]) = .next t ∧ busy.busy = true ∧ t.busy = true :=
  ⟨_, rfl, by decide, by decide⟩

/-- Two states that agree on the registers and C and differ in V. -/
theorem test_witness_OutcomeDepends :
    ∃ t₁ t₂, executePacket ⟨0x00021321, 0⟩ busy = .next t₁ ∧ executePacket ⟨0x00021321, 0⟩ (busy.setV true) = .next t₂ ∧
      busy.regs = (busy.setV true).regs ∧ busy.c = (busy.setV true).c ∧ busy.fault = .none ∧ t₁.v ≠ t₂.v :=
  ⟨_, _, rfl, rfl, rfl, rfl, rfl, by decide⟩

theorem test_witness_NopHasNoEffect : decode ⟨0, 0⟩ = .command .nop ∧ (0 : Header).toNat % 2 ^ 8 = 0 := by decide

/-- A nonzero divisor: 1, and −1 under the dividend MinI256. -/
theorem test_witness_nonzeroDivisor :
    (start [(2, 1)] false false).reg 2 ≠ 0 ∧ (start [(1, minI256), (2, -1)] false false).reg 2 ≠ 0 ∧
    quoWord minI256 (-1) = minI256 ∧ remWord minI256 (-1) = 0 := by decide

/-- UDIVREM into one register keeps the remainder (R142); into two, both. -/
theorem test_witness_Udivrem :
    (nextOf (exec (.udivrem 3 3 1 2) (start [(1, 7), (2, 4)] false false))).map (fun t => t.reg 3) = some 3 ∧
    (nextOf (exec (.udivrem 1 2 1 2) (start [(1, 7), (2, 4)] false false))).map (fun t => (t.reg 1, t.reg 2)) =
      some (1, 3) := by decide

theorem test_witness_SqrtIsExact :
    0 ≤ (State.reset.reg 1).toInt ∧ 0 ≤ ((start [(1, maxI256)] false false).reg 1).toInt := by decide

/-- Equal signs: both negative, both zero, both positive. -/
theorem test_witness_BorrowChain :
    sign minI256 = sign (-1) ∧ sign 0 = sign 0 ∧ sign 1 = sign maxI256 := by decide

theorem test_witness_Newton : newtonSqrt 0 = 0 ∧ newtonSqrt (2 ^ 254) = 2 ^ 127 := by decide +kernel

/-- The last address of each size. -/
theorem test_witness_WindowRead :
    HostTurn (hostState State.reset [.windowRead 511 1]) (.windowRead 511 1) [] ∧ 511 % 1 = 0 ∧
    HostTurn (hostState State.reset [.windowRead 504 8]) (.windowRead 504 8) [] ∧ 504 % 8 = 0 ∧
    HostTurn (hostState State.reset [.windowRead 480 32]) (.windowRead 480 32) [] ∧ 480 % 32 = 0 := by
  unfold HostTurn; decide

theorem test_witness_WindowWrite :
    HostTurn (hostState State.reset [.windowWrite 511 [1]]) (.windowWrite 511 [1]) [] ∧
    HostTurn (hostState State.reset [.windowWrite 480 (List.replicate 32 1)])
      (.windowWrite 480 (List.replicate 32 1)) [] ∧ 480 % (List.replicate 32 (1 : Byte)).length = 0 := by
  unfold HostTurn; decide

/-- Every answer of a window read occurs, each where the one before it in the order just fails to apply. -/
theorem test_witness_WindowRefusals :
    windowResponse 512 0 true = .errSize ∧ windowResponse 512 33 true = .errSize ∧ windowResponse 512 32 true = .errRange ∧
    windowResponse 511 8 true = .errAlign ∧ windowResponse 511 1 true = .errBusy ∧ windowResponse 511 1 false = .ok := by
  decide

theorem test_witness_Control :
    HostTurn (hostState busy [.controlRead 2]) (.controlRead 2) [] ∧
    HostTurn (hostState busy [.controlWrite 0 1]) (.controlWrite 0 1) [] := by
  unfold HostTurn; decide

theorem test_witness_ReadsAreIdempotent :
    HostTurn (hostState busy [.controlRead 0, .controlRead 0]) (.controlRead 0) [.controlRead 0] ∧
    ∃ t, step (hostState busy [.controlRead 0, .controlRead 0]) = .next t ∧ HostTurn t (.controlRead 0) [] :=
  ⟨by unfold HostTurn; decide, _, rfl, by unfold HostTurn; decide⟩

/-- From reset, with no turn given. -/
theorem test_witness_ReadAfterWrite :
    HostTurn { State.reset with script := [.windowWrite 511 [7], .windowRead 511 1] } (.windowWrite 511 [7])
      [.windowRead 511 1] ∧
    ∃ t, step { State.reset with script := [.windowWrite 511 [7], .windowRead 511 1] } = .next t ∧ t.busy = false ∧
      HostTurn t (.windowRead 511 1) [] :=
  ⟨by unfold HostTurn; decide, _, rfl, by decide, by unfold HostTurn; decide⟩

theorem test_witness_Sentinels : (0 : Reg) ≠ 15 ∧ expandPseudo (.ldmin 1 1) = none := by decide

/-- The ends of each operand's range, and one past them (R69). -/
theorem test_witness_AssembledCommands :
    operandReg (.reg 15) = some 15 ∧ operandReg (.reg 16) = none ∧
    assembleCommand "lds64" [.reg 1, .imm (-2 ^ 63)] = some (.lds64 1 0x8000000000000000) ∧
    assembleCommand "lds64" [.reg 1, .imm (2 ^ 63)] = none ∧
    assembleCommand "ldu64" [.reg 1, .imm (2 ^ 64 - 1)] = some (.ldu64 1 0xFFFFFFFFFFFFFFFF) ∧
    assembleCommand "ldu64" [.reg 1, .imm (2 ^ 64)] = none ∧
    assembleCommand "wrflags" [.imm 3] = some (.wrflags 3) ∧ assembleCommand "wrflags" [.imm 4] = none := by decide

/-- A command's text, and the text of no command: `add` with two operands. -/
theorem test_witness_AssemblerReadsItsText :
    "SQRT".toList.map Char.toLower = (asmName (.sqrt 2 15)).toList ∧
    [['r', '2'], ['r', '1', '5']].map readOperand = (asmOperands (.sqrt 2 15)).map some ∧
    (assembleCommand "add" [.reg 2, .reg 15] = none ∧ readPseudo "add" [.reg 2, .reg 15] = none) := by decide

end Sys2Proof.Tests
end

section
/-! What the commands in the expansions of R70 do, each as a rule about `exec`, and running a list of commands. -/

namespace Sys2Proof.Machine

/-! ## Rules of ONE, LDU64, SHL and SUB -/

theorem exec_one_wroteOnly (rd : Reg) (s : State) : ∃ t, exec (.one rd) s = .next t ∧ WroteOnly rd 1 s t :=
  ⟨_, rfl, wroteOnly_setReg_complete s rd 1⟩

theorem exec_ldu64_wroteOnly (rd : Reg) (imm : BitVec 64) (s : State) :
    ∃ t, exec (.ldu64 rd imm) s = .next t ∧ WroteOnly rd (BitVec.ofNat 256 imm.toNat) s t := by
  rw [BitVec.ofNat_toNat]
  exact ⟨_, rfl, wroteOnly_setReg_complete s rd _⟩

/-- The branch of R150 for amounts from 256 is the product as well: its pattern is 0. -/
theorem shlWord_eq_ofNat (a : Word) (n : Nat) : shlWord a n = BitVec.ofNat 256 (a.toNat * 2 ^ n) := by
  unfold shlWord
  split
  next h =>
    have hdvd : 2 ^ 256 ∣ a.toNat * 2 ^ n := Dvd.dvd.mul_left (pow_dvd_pow 2 h) _
    apply BitVec.eq_of_toNat_eq
    rw [bits256, BitVec.toNat_ofNat, BitVec.toNat_ofNat, Nat.mod_eq_zero_of_dvd hdvd, Nat.zero_mod]
  next => rfl

theorem exec_shl_wroteOnly (rd rs1 rs2 : Reg) (s : State) :
    ∃ t, exec (.shl rd rs1 rs2) s = .next t ∧
      WroteOnly rd (BitVec.ofNat 256 ((s.reg rs1).toNat * 2 ^ (s.reg rs2).toNat)) s t := by
  rw [← shlWord_eq_ofNat]
  exact ⟨_, rfl, wroteOnly_setReg_complete s rd _⟩

/-- The wrapping difference is that of the signed values (R122). -/
theorem subWord_eq_ofInt (a b : Word) : subWord a b = BitVec.ofInt 256 (a.toInt - b.toInt) := by
  obtain ⟨k, ha⟩ := exists_toInt_eq a
  obtain ⟨l, hb⟩ := exists_toInt_eq b
  exact ofInt_congr ⟨l - k, by rw [ha, hb, uval, uval]; ring⟩

theorem exec_sub_wroteOnly (rd rs1 rs2 : Reg) (s : State) :
    ∃ t, exec (.sub rd rs1 rs2) s = .next t ∧
      WroteOnly rd (BitVec.ofInt 256 ((s.reg rs1).toInt - (s.reg rs2).toInt)) s t := by
  rw [← subWord_eq_ofInt]
  exact ⟨_, rfl, wroteOnly_setReg_complete s rd _⟩

/-! ## Running a list of commands -/

theorem execAll_cons_of_next {i : Instr} {s t : State} (h : exec i s = .next t) (rest : List Instr) :
    execAll (i :: rest) s = execAll rest t := by
  simp [execAll, h]

theorem SameFlags.trans {s t u : State} (h : SameFlags s t) (k : SameFlags t u) : SameFlags s u :=
  ⟨k.1.trans h.1, k.2.trans h.2⟩

/-! ## The expansions of `ldmin` and `ldmax` (30_encoding.md R70) -/

/-- The three commands both expansions begin with: 1 shifted left by 255 is MinI256. What stands after them runs
from the state they leave. -/
theorem execAll_one_shl_255 {rd rt : Reg} (hne : rd ≠ rt) (s : State) :
    ∃ t, (∀ rest, execAll (.one rd :: .ldu64 rt 255 :: .shl rd rd rt :: rest) s = execAll rest t) ∧
      t.reg rd = minI256 ∧ t.reg rt = 255 ∧ SameFlags s t ∧ ∀ r, r ≠ rd → r ≠ rt → t.reg r = s.reg r := by
  obtain ⟨t₁, run₁, -, one₁, frame₁, flags₁⟩ := exec_one_wroteOnly rd s
  obtain ⟨t₂, run₂, -, amount₂, frame₂, flags₂⟩ := exec_ldu64_wroteOnly rt 255 t₁
  obtain ⟨t₃, run₃, -, min₃, frame₃, flags₃⟩ := exec_shl_wroteOnly rd rd rt t₂
  refine ⟨t₃, fun rest => ?_, ?_, ?_, (flags₁.trans flags₂).trans flags₃, fun r hd ht => ?_⟩
  · rw [execAll_cons_of_next run₁, execAll_cons_of_next run₂, execAll_cons_of_next run₃]
  · rw [min₃, frame₂ rd hne, one₁, amount₂]; decide
  · rw [frame₃ rt hne.symm, amount₂]; decide
  · rw [frame₃ r hd, frame₂ r ht, frame₁ r hd]

/-- The two commands that end the expansion of `ldmax`: MinI256 − 1 wraps to MaxI256. -/
theorem execAll_one_sub {rd rt : Reg} (hne : rd ≠ rt) {s : State} (hmin : s.reg rd = minI256) :
    ∃ t, execAll [.one rt, .sub rd rd rt] s = .next t ∧
      t.reg rd = maxI256 ∧ t.reg rt = 1 ∧ SameFlags s t ∧ ∀ r, r ≠ rd → r ≠ rt → t.reg r = s.reg r := by
  obtain ⟨t₁, run₁, -, one₁, frame₁, flags₁⟩ := exec_one_wroteOnly rt s
  obtain ⟨t₂, run₂, -, max₂, frame₂, flags₂⟩ := exec_sub_wroteOnly rd rd rt t₁
  refine ⟨t₂, ?_, ?_, ?_, flags₁.trans flags₂, fun r hd ht => ?_⟩
  · rw [execAll_cons_of_next run₁, execAll_cons_of_next run₂, execAll]
  · rw [max₂, frame₁ rd hne, hmin, one₁]; decide
  · rw [frame₂ rt hne.symm, one₁]
  · rw [frame₂ r hd, frame₁ r ht]

/-- Settles O56: both expansions build MinI256 by a shift; that of `ldmax` then takes 1 away. -/
theorem sentinelPseudosBuildTheirValue : Obligations.SentinelPseudosBuildTheirValue := by
  intro rd rt s
  refine ⟨fun heq => by simp [expandPseudo, heq], fun hne => ?_⟩
  obtain ⟨t, run, hmin, hamount, flags, frame⟩ := execAll_one_shl_255 hne s
  obtain ⟨u, runMax, hmax, hone, flagsMax, frameMax⟩ := execAll_one_sub hne hmin
  constructor
  · exact ⟨_, t, if_neg hne, run [], (eq_minI256_iff _).1 hmin, hamount, flags, frame⟩
  · refine ⟨_, u, if_neg hne, (run _).trans runMax, ?_, hone, flags.trans flagsMax, fun r hd ht => ?_⟩
    · rw [hmax]; decide
    · rw [frameMax r hd ht, frame r hd ht]

end Sys2Proof.Machine
end

section
/-! The state obligations (10_state.md): what a command may write, what performing a packet and one step can do to the
block, each said once; then the frame statements and the invariant from these. -/

namespace Sys2Proof.Machine

/-! ## What a command may write (R23, R26, R27) -/

/-- From `s` to `t` nothing changed but what the command `i` is listed to write: its destination registers (R23), C if
it writes C (R26), V if it writes V (R27). -/
structure WroteAtMost (i : Instr) (s t : State) : Prop where
  regs : ∀ r, r ∉ destinations i → t.reg r = s.reg r
  c : writesC i = false → t.c = s.c
  v : writesV i = false → t.v = s.v

theorem WroteAtMost.refl (i : Instr) (s : State) : WroteAtMost i s s := ⟨fun _ _ => rfl, fun _ => rfl, fun _ => rfl⟩

theorem WroteAtMost.setReg {i : Instr} {s t : State} (h : WroteAtMost i s t) {rd : Reg} (hd : rd ∈ destinations i)
    (w : Word) : WroteAtMost i s (t.setReg rd w) :=
  ⟨fun r hr => (reg_setReg_ne t w (ne_of_mem_of_not_mem hd hr).symm).trans (h.regs r hr), h.c, h.v⟩

theorem WroteAtMost.setC {i : Instr} {s t : State} (h : WroteAtMost i s t) (hc : writesC i = true) (b : Bool) :
    WroteAtMost i s (t.setC b) :=
  ⟨h.regs, fun hn => by simp [hc] at hn, h.v⟩

theorem WroteAtMost.setV {i : Instr} {s t : State} (h : WroteAtMost i s t) (hv : writesV i = true) (b : Bool) :
    WroteAtMost i s (t.setV b) :=
  ⟨h.regs, h.c, fun hn => by simp [hv] at hn⟩

theorem WroteAtMost.complete {i : Instr} {s t : State} (h : WroteAtMost i s t) : WroteAtMost i s t.complete :=
  ⟨h.regs, h.c, h.v⟩

theorem WroteAtMost.takeFault {i : Instr} {s t : State} (h : WroteAtMost i s t) (code : FaultCode) (hdr : Header) :
    WroteAtMost i s (t.takeFault code hdr) :=
  ⟨h.regs, h.c, h.v⟩

/-- The end of every command with one destination and no flag. -/
theorem WroteAtMost.setReg_complete {i : Instr} {rd : Reg} (hd : destinations i = [rd]) (s : State) (w : Word) :
    WroteAtMost i s (s.setReg rd w).complete :=
  ((WroteAtMost.refl i s).setReg (by simp [hd]) w).complete

/-- Every command ends with its destinations and its flags written at most. -/
theorem exec_next_wroteAtMost (i : Instr) (s : State) : ∃ t, exec i s = .next t ∧ WroteAtMost i s t := by
  have start := WroteAtMost.refl i s
  cases i with
  | nop => exact ⟨_, rfl, start.complete⟩
  | wrflags imm => exact ⟨_, rfl, ((start.setC rfl _).setV rfl _).complete⟩
  | adc64 rd rs1 rs2 | sbb64 rd rs1 rs2 => exact ⟨_, rfl, ((start.setReg (.head _) _).setC rfl _).complete⟩
  | addo rd rs1 rs2 | subo rd rs1 rs2 | mulo rd rs1 rs2 =>
    exact ⟨_, rfl, ((start.setReg (.head _) _).setV rfl _).complete⟩
  | quo rd rs1 rs2 | rem rd rs1 rs2 | sqrt rd rs1 =>
    simp only [exec, execQuo, execRem, execSqrt]
    split
    · exact ⟨_, rfl, start.takeFault _ _⟩
    · exact ⟨_, rfl, .setReg_complete rfl s _⟩
  | udivrem rd rd2 rs1 rs2 =>
    simp only [exec, execUdivrem]
    split
    · exact ⟨_, rfl, start.takeFault _ _⟩
    · exact ⟨_, rfl, ((start.setReg (.head _) _).setReg (.tail _ (.head _)) _).complete⟩
  | _ => exact ⟨_, rfl, .setReg_complete rfl s _⟩

theorem wroteAtMost_of_exec {i : Instr} {s t : State} (h : exec i s = .next t) : WroteAtMost i s t := by
  obtain ⟨u, hu, hw⟩ := exec_next_wroteAtMost i s
  obtain rfl : u = t := Host.Outcome.next.inj (hu.symm.trans h)
  exact hw

/-- Settles O20: the register part of what a command may write. -/
theorem commandsWriteOnlyTheirDestinations : Obligations.CommandsWriteOnlyTheirDestinations :=
  fun _ _ _ h => (wroteAtMost_of_exec h).regs

/-- Settles O21: a byte outside the destinations' 32 bytes lies in a register that is no destination. -/
theorem commandsLeaveOtherWindowBytes : Obligations.CommandsLeaveOtherWindowBytes := by
  intro i s t h a ha houtside
  have hreg : windowReg a ∉ destinations i := fun hmem => by
    have hout := houtside _ hmem
    rw [windowReg_val a ha] at hout
    omega
  rw [State.windowByte, State.windowByte, (wroteAtMost_of_exec h).regs _ hreg]

/-! ## Executing a packet (R207, R221) -/

/-- Everything executing a packet can do: the fault ILLEGAL_COMMAND under the packet's header, or a command. -/
theorem executePacket_cases {p : Packet} {s t : State} (h : executePacket p s = .next t) :
    (∃ why, decode p = .illegal why ∧ t = s.takeFault .illegalCommand p.hdr) ∨
    (∃ i, decode p = .command i ∧ exec i s = .next t) := by
  rcases decode_total p with ⟨i, hd⟩ | ⟨why, hd⟩
  · exact .inr ⟨i, hd, by simpa [executePacket, hd] using h⟩
  · exact .inl ⟨why, hd, by simpa [executePacket, hd, eq_comm] using h⟩

/-- Everything a command can do, said of the state it ends in. -/
theorem exec_eq_next_cases {i : Instr} {s t : State} (h : exec i s = .next t) :
    (faultCondition i s ≠ .none ∧ t = s.takeFault (faultCondition i s) i.header) ∨
    ∃ regs c v, t = State.complete { s with regs := regs, c := c, v := v } := by
  rcases exec_cases i s with ⟨hf, he⟩ | ⟨-, regs, c, v, he⟩
  · exact .inl ⟨hf, Host.Outcome.next.inj (h.symm.trans he)⟩
  · exact .inr ⟨regs, c, v, Host.Outcome.next.inj (h.symm.trans he)⟩

theorem busy_of_exec {i : Instr} {s t : State} (h : exec i s = .next t) : t.busy = false := by
  rcases exec_eq_next_cases h with ⟨-, rfl⟩ | ⟨_, _, _, rfl⟩
  · exact busy_takeFault _ _ _
  · exact busy_complete _

theorem busy_of_executePacket {p : Packet} {s t : State} (h : executePacket p s = .next t) : t.busy = false := by
  rcases executePacket_cases h with ⟨why, -, rfl⟩ | ⟨i, -, he⟩
  · exact busy_takeFault _ _ _
  · exact busy_of_exec he

/-- Where executing a packet changes anything a command may write, the packet is a command's. -/
theorem executePacket_wroteAtMost {p : Packet} {s t : State} (h : executePacket p s = .next t) :
    ((∀ r, t.reg r = s.reg r) ∧ t.c = s.c ∧ t.v = s.v) ∨ ∃ i, decode p = .command i ∧ WroteAtMost i s t := by
  rcases executePacket_cases h with ⟨why, -, rfl⟩ | ⟨i, hd, he⟩
  · exact .inl ⟨fun _ => rfl, rfl, rfl⟩
  · exact .inr ⟨i, hd, wroteAtMost_of_exec he⟩

/-! ## What the host's interactions leave unchanged -/

/-- The flags, FAULT and FCMD are as they were, and the packet in progress too, unless a free port took one while the
core was not halted (R220). -/
structure StatusKept (s t : State) : Prop where
  c : t.c = s.c
  v : t.v = s.v
  fault : t.fault = s.fault
  fcmd : t.fcmd = s.fcmd
  inFlight : t.inFlight = s.inFlight ∨ (s.inFlight = none ∧ s.fault = .none)

theorem StatusKept.halted {s t : State} (h : StatusKept s t) : t.halted = s.halted := by
  simp only [State.halted, h.fault]

theorem StatusKept.observe_eq {s t : State} (h : StatusKept s t) (hregs : t.regs = s.regs) : observe t = observe s := by
  simp only [observe, hregs, h.c, h.v, h.fault, h.fcmd]

/-- Using up a turn and an interaction touches nothing of the status. -/
theorem StatusKept.of_nextTurn_setScript {s t : State} {rest : List HostAction}
    (h : StatusKept (s.nextTurn.setScript rest) t) : StatusKept s t :=
  ⟨h.c, h.v, h.fault, h.fcmd, h.inFlight⟩

theorem statusKept_hostOffer (s : State) (p : Packet) : StatusKept s (s.hostOffer p) := by
  rcases hostOffer_cases s p with ⟨hi, hf, he⟩ | ⟨-, he⟩ <;> rw [he]
  · exact ⟨rfl, rfl, rfl, rfl, .inr ⟨hi, hf⟩⟩
  · exact ⟨rfl, rfl, rfl, rfl, .inl rfl⟩

theorem hostOffer_regs (s : State) (p : Packet) : (s.hostOffer p).regs = s.regs := by
  rcases hostOffer_cases s p with ⟨-, -, he⟩ | ⟨-, he⟩ <;> rw [he] <;> rfl

theorem statusKept_hostWindowWrite (s : State) (a : Nat) (data : List Byte) :
    StatusKept s (s.hostWindowWrite a data) := by
  obtain ⟨regs, he⟩ := hostWindowWrite_frame s a data
  rw [he]
  exact ⟨rfl, rfl, rfl, rfl, .inl rfl⟩

/-- No interaction but a reset changes the flags, FAULT or FCMD (R26, R27, R30, R31). -/
theorem statusKept_hostAct (s : State) {a : HostAction} (ha : ∀ keep, a ≠ .reset keep) :
    StatusKept s (s.hostAct a) := by
  cases a with
  | offer p => exact statusKept_hostOffer s p
  | offerWords words =>
    simp only [State.hostAct, State.hostOfferWords]
    split
    · exact statusKept_hostOffer s _
    · exact ⟨rfl, rfl, rfl, rfl, .inl rfl⟩
  | windowWrite addr data => exact statusKept_hostWindowWrite s addr data
  | windowRead | controlRead | controlWrite => exact ⟨rfl, rfl, rfl, rfl, .inl rfl⟩
  | reset keep => exact absurd rfl (ha keep)

/-- No interaction but a window write or a reset changes a register. -/
theorem hostAct_regs (s : State) {a : HostAction} (hr : ∀ keep, a ≠ .reset keep)
    (hw : ∀ addr data, a ≠ .windowWrite addr data) : (s.hostAct a).regs = s.regs := by
  cases a with
  | offer p => exact hostOffer_regs s p
  | offerWords words =>
    simp only [State.hostAct, State.hostOfferWords]
    split
    · exact hostOffer_regs s _
    · rfl
  | windowRead | controlRead | controlWrite => rfl
  | windowWrite addr data => exact absurd rfl (hw addr data)
  | reset keep => exact absurd rfl (hr keep)

/-! ## What a step does to the block -/

/-- Everything a step can do to registers, flags and status: the core executes its packet; a reset; or the status is
kept, and the registers with it unless the step is a window write. -/
theorem step_block_cases {s t : State} (h : step s = .next t) :
    (∃ p, CoreTurn s p ∧ executePacket p s.nextTurn = .next t) ∨
    (∃ keep rest, HostTurn s (.reset keep) rest ∧ t = (s.nextTurn.setScript rest).hostReset keep) ∨
    (StatusKept s t ∧ (t.regs = s.regs ∨ ∃ a data rest, HostTurn s (.windowWrite a data) rest ∧
      t = (s.nextTurn.setScript rest).hostWindowWrite a data)) := by
  rcases step_cases h with hcore | ⟨p, ⟨-, hi, hf, -⟩, rfl⟩ | ⟨a, rest, hturn, rfl⟩
  · exact .inl hcore
  · exact .inr (.inr ⟨⟨rfl, rfl, rfl, rfl, .inr ⟨hi, hf⟩⟩, .inl rfl⟩)
  · by_cases hr : ∃ keep, a = .reset keep
    · obtain ⟨keep, rfl⟩ := hr
      exact .inr (.inl ⟨keep, rest, hturn, rfl⟩)
    · push Not at hr
      refine .inr (.inr ⟨(statusKept_hostAct _ hr).of_nextTurn_setScript, ?_⟩)
      by_cases hw : ∃ addr data, a = .windowWrite addr data
      · obtain ⟨addr, data, rfl⟩ := hw
        exact .inr ⟨addr, data, rest, hturn, rfl⟩
      · push Not at hw
        exact .inl (hostAct_regs _ hr hw)

/-- Settles O12: while FAULT is nonzero the core has no turn, so the host moves, and only a reset touches the status. -/
theorem faultStaysUntilReset : Obligations.FaultStaysUntilReset := by
  intro s t hfault h hreset
  rcases step_block_cases h with ⟨p, ⟨-, hf, -⟩, -⟩ | ⟨keep, rest, hturn, -⟩ | ⟨hkept, -⟩
  · exact absurd hf hfault
  · exact absurd ⟨keep, rest, hturn⟩ hreset
  · exact ⟨hkept.fault, hkept.fcmd, hkept.c, hkept.v, hkept.inFlight.resolve_right fun hfree => hfault hfree.2⟩

/-- Settles O22: an executed packet that changes a flag is a command listed to write it. -/
theorem flagsChangeOnlyByListedCommands : Obligations.FlagsChangeOnlyByListedCommands := by
  intro s t h
  rcases step_block_cases h with ⟨p, hturn, he⟩ | ⟨keep, rest, hturn, -⟩ | ⟨hkept, -⟩
  · rcases executePacket_wroteAtMost he with ⟨-, hc, hv⟩ | ⟨i, hd, hwrote⟩
    · exact ⟨fun hne => absurd hc hne, fun hne => absurd hv hne⟩
    · exact ⟨fun hne => .inl ⟨p, i, hturn, hd, by_contra fun hn => hne (hwrote.c (by simpa using hn))⟩,
        fun hne => .inl ⟨p, i, hturn, hd, by_contra fun hn => hne (hwrote.v (by simpa using hn))⟩⟩
  · exact ⟨fun _ => .inr ⟨keep, rest, hturn⟩, fun _ => .inr ⟨keep, rest, hturn⟩⟩
  · exact ⟨fun hne => absurd hkept.c hne, fun hne => absurd hkept.v hne⟩

/-- Settles O24: executing ends with BUSY = 0, as a reset does, and a window write is refused while BUSY = 1. -/
theorem nothingChangesWhileBusy : Obligations.NothingChangesWhileBusy := by
  intro s t hbusy h hbusy'
  rcases step_block_cases h with ⟨p, -, he⟩ | ⟨keep, rest, -, rfl⟩ | ⟨hkept, hregs | ⟨a, data, rest, -, rfl⟩⟩
  · simp [busy_of_executePacket he] at hbusy'
  · simp at hbusy'
  · exact hkept.observe_eq hregs
  · exact hkept.observe_eq (hostWindowWrite_regs_busy (s.nextTurn.setScript rest) a data hbusy)

/-! ## A window write stays in one register (R41, R43, R44) -/

/-- Bytes written outside `x[r]` leave it alone. -/
theorem reg_setWindowBytes_of_outside (data : List Byte) (s : State) (a : Nat) (r : Reg)
    (h : ∀ k, k < data.length → windowReg (a + k) ≠ r) : (s.setWindowBytes a data).reg r = s.reg r := by
  induction data generalizing s a with
  | nil => rfl
  | cons b rest ih =>
    rw [State.setWindowBytes, ih, State.setWindowByte, reg_setReg_ne]
    · exact (h 0 (by simp)).symm
    · intro k hk
      rw [Nat.add_right_comm]
      exact h (k + 1) (by simpa using hk)

/-- The bytes of an access of a legal size at a multiple of that size lie in one register. -/
theorem windowReg_add_of_aligned {a n k : Nat} (hn : n = 1 ∨ n = 8 ∨ n = 32) (ha : a % n = 0) (hk : k < n) :
    windowReg (a + k) = windowReg a := by
  have hdiv : (a + k) / 32 = a / 32 := by rcases hn with rfl | rfl | rfl <;> omega
  rw [windowReg, windowReg, hdiv]

/-- A window write changes a register only when it is answered OK, and then only the register its address lies in. -/
theorem hostWindowWrite_reg_ne {s : State} {a : Nat} {data : List Byte} {r : Reg}
    (h : (s.hostWindowWrite a data).reg r ≠ s.reg r) :
    s.busy = false ∧ a < 512 ∧ r = windowReg a ∧
      (s.hostWindowWrite a data).reply = some (.windowWrite .ok) := by
  by_cases hok : windowResponse a data.length s.busy = .ok
  · obtain ⟨hsize, hrange, halign, hfree⟩ := (windowResponse_ok_iff _ _ _).1 hok
    refine ⟨hfree, hrange, ?_, by simp [State.hostWindowWrite, hok]⟩
    by_contra hother
    refine h ?_
    simp only [State.hostWindowWrite, hok, if_true, reg_answer]
    refine reg_setWindowBytes_of_outside data s a r fun k hk => ?_
    rw [windowReg_add_of_aligned hsize halign hk]
    exact Ne.symm hother
  · simp [State.hostWindowWrite, hok] at h

/-- Settles O23: one cause for each kind of step that touches a register. -/
theorem registersChangeOnlyByThreeCauses : Obligations.RegistersChangeOnlyByThreeCauses := by
  intro s t r h hne
  rcases step_block_cases h with ⟨p, hturn, he⟩ | ⟨keep, rest, hturn, -⟩ |
    ⟨-, hregs | ⟨a, data, rest, hturn, rfl⟩⟩
  · rcases executePacket_wroteAtMost he with ⟨hsame, -⟩ | ⟨i, hd, hwrote⟩
    · exact absurd (hsame r) hne
    · exact .inl ⟨p, i, hturn, hd, by_contra fun hr => hne (hwrote.regs r hr), busy_of_executePacket he⟩
  · exact .inr (.inr ⟨keep, rest, hturn⟩)
  · exact absurd (by rw [State.reg, State.reg, hregs]) hne
  · exact .inr (.inl ⟨a, data, rest, hturn, hostWindowWrite_reg_ne (s := s.nextTurn.setScript rest) hne⟩)

/-! ## The cause of a fault (R200, R203) -/

/-- A header that carries a command's fields, of a command that uses no immediate, is read back with the immediate 0. -/
theorem decode_header_of_encodedFields {i : Instr} (hfields : Laws.EncodedFields.Statement i)
    (himm : i.immediate = 0) : decode ⟨i.header, 0⟩ = .command i := by
  obtain ⟨-, hresv, hunused⟩ := hfields
  have hselect : selectCommand ⟨i.header, 0⟩ = some i := by
    obtain ⟨ho, -, hrd, hrs1, hrs2, hrs3⟩ := Laws.headerOf_fields i.opcode i.regFields.rd i.regFields.rs1
      i.regFields.rs2 i.regFields.rs3 (opcode_lt i)
    simp only [selectCommand, Instr.header, ho, hrd, hrs1, hrs2, hrs3]
    rw [← himm]
    exact commandOf_encode i
  exact (decode_eq_command_iff _ _).2 ⟨hselect, hresv, hunused, by simp [unusedImmZero]⟩

/-- A command's fault leaves a header that raises it. -/
theorem faultHasCause_takeFault_of_faultCondition {i : Instr} {s : State} (h : faultCondition i s ≠ .none)
    (u : State) : FaultHasCause (u.takeFault (faultCondition i s) i.header) := by
  cases i with
  | quo rd rs1 rs2 =>
    have hcode : faultCondition (.quo rd rs1 rs2) s = .zeroDivision := by simpa [faultCondition] using h
    rw [hcode]
    exact .inl ⟨rd, rs1, rs2, decode_header_of_encodedFields (Laws.EncodedFields.quo rd rs1 rs2) rfl⟩
  | rem rd rs1 rs2 =>
    have hcode : faultCondition (.rem rd rs1 rs2) s = .zeroDivision := by simpa [faultCondition] using h
    rw [hcode]
    exact .inr (.inl ⟨rd, rs1, rs2, decode_header_of_encodedFields (Laws.EncodedFields.rem rd rs1 rs2) rfl⟩)
  | udivrem rd rd2 rs1 rs2 =>
    have hcode : faultCondition (.udivrem rd rd2 rs1 rs2) s = .zeroDivision := by simpa [faultCondition] using h
    rw [hcode]
    exact .inr (.inr ⟨rd, rd2, rs1, rs2,
      decode_header_of_encodedFields (Laws.EncodedFields.udivrem rd rd2 rs1 rs2) rfl⟩)
  | sqrt rd rs1 =>
    have hcode : faultCondition (.sqrt rd rs1) s = .negativeArgument := by simpa [faultCondition] using h
    rw [hcode]
    exact ⟨rd, rs1, decode_header_of_encodedFields (Laws.EncodedFields.sqrt rd rs1) rfl⟩
  | _ => exact absurd rfl h

/-- An illegal packet's fault leaves a header that the packet's own immediate makes illegal (R66). -/
theorem faultHasCause_takeFault_of_illegal {p : Packet} {why : Illegal} (h : decode p = .illegal why) (u : State) :
    FaultHasCause (u.takeFault .illegalCommand p.hdr) :=
  ⟨p.imm, why, h⟩

theorem faultHasCause_congr {s t : State} (hfault : t.fault = s.fault) (hfcmd : t.fcmd = s.fcmd)
    (h : FaultHasCause s) : FaultHasCause t := by
  unfold FaultHasCause at h ⊢
  rwa [hfault, hfcmd]

/-! ## The invariant of the block -/

theorem inv_of_not_busy {s : State} (hbusy : s.busy = false) (hcause : FaultHasCause s) : Inv s :=
  ⟨fun h => by simp [hbusy] at h, hcause⟩

theorem inv_of_exec {i : Instr} {s t : State} (hcause : FaultHasCause s) (h : exec i s = .next t) : Inv t := by
  refine inv_of_not_busy (busy_of_exec h) ?_
  rcases exec_eq_next_cases h with ⟨hf, rfl⟩ | ⟨regs, c, v, rfl⟩
  · exact faultHasCause_takeFault_of_faultCondition hf s
  · exact faultHasCause_congr rfl rfl hcause

theorem inv_of_executePacket {p : Packet} {s t : State} (hcause : FaultHasCause s)
    (h : executePacket p s = .next t) : Inv t := by
  rcases executePacket_cases h with ⟨why, hd, rfl⟩ | ⟨i, -, he⟩
  · exact inv_of_not_busy (busy_takeFault _ _ _) (faultHasCause_takeFault_of_illegal hd s)
  · exact inv_of_exec hcause he

theorem inv_hostReset (s : State) (keep : Bool) : Inv (s.hostReset keep) := inv_of_not_busy (busy_hostReset s keep) rfl

theorem StatusKept.inv {s t : State} (h : StatusKept s t) (hinv : Inv s) : Inv t := by
  obtain ⟨hbusy, hcause⟩ := hinv
  refine ⟨fun ht => ?_, faultHasCause_congr h.fault h.fcmd hcause⟩
  rw [h.halted]
  rcases h.inFlight with hsame | ⟨-, hfault⟩
  · exact hbusy (by rwa [busy_eq, ← hsame])
  · exact (halted_eq_false_iff s).2 hfault

/-- Settles O15: executing a packet records a cause with its fault, a reset clears both, and every other step keeps the
status, taking a packet only where nothing is halted. -/
theorem everyStepKeepsTheBlockConsistent : Obligations.EveryStepKeepsTheBlockConsistent := by
  intro s t hinv h
  have ⟨_, hcause⟩ := hinv
  rcases step_block_cases h with ⟨p, -, he⟩ | ⟨keep, rest, -, rfl⟩ | ⟨hkept, -⟩
  · exact inv_of_executePacket (s := s.nextTurn) (faultHasCause_congr rfl rfl hcause) he
  · exact inv_hostReset _ keep
  · exact hkept.inv hinv

/-- Settles O16: nothing is in progress, and FAULT and FCMD are both 0. -/
theorem resetIsConsistent : Obligations.ResetIsConsistent := inv_of_not_busy busy_reset rfl

/-- Settles O13: what State.reset holds in each field. -/
theorem resetState : Obligations.ResetState :=
  ⟨reg_reset, reset_c, reset_v, busy_reset, reset_fault, halted_reset, reset_fcmd, reset_inFlight⟩

/-! ## The control space (R28, R29, R48) -/

/-- STATUS, field by field (R28). -/
theorem statusWord_fields (s : State) :
    s.statusWord.getLsbD 0 = s.c ∧ s.statusWord.getLsbD 1 = s.v ∧ s.statusWord.getLsbD 2 = s.busy ∧
      s.statusWord.getLsbD 3 = s.halted ∧ s.statusWord.toNat / 16 = (faultBits s.fault).toNat := by
  unfold State.statusWord
  generalize faultBits s.fault = f, s.halted = h, s.busy = b, s.v = v, s.c = c
  revert f h b v c
  decide

/-- Settles O51: one case for each of the two words and one for every other address. -/
theorem controlReadShowsStatusAndFcmd : Obligations.ControlReadShowsStatusAndFcmd := by
  intro s a rest hturn
  match a with
  | 0 =>
    obtain ⟨hc, hv, hbusy, hhalted, hfault⟩ := statusWord_fields s
    refine ⟨_, .ok, s.statusWord, step_of_hostTurn hturn, rfl, rfl, rfl,
      fun _ => ⟨rfl, hc, hv, hbusy, hhalted, hfault.trans ?_⟩, by omega, by omega⟩
    cases s.fault <;> rfl
  | 1 => exact ⟨_, .ok, s.fcmd, step_of_hostTurn hturn, rfl, rfl, rfl, by omega, fun _ => ⟨rfl, rfl⟩, by omega⟩
  | a + 2 => exact ⟨_, .errRange, 0, step_of_hostTurn hturn, rfl, rfl, rfl, by omega, by omega, fun _ => rfl⟩

end Sys2Proof.Machine
end

section
/-! The memory obligations (20_memory.md): the bytes of the window as slices and as values, what a window access that is
not refused does, which answer an access gets, and what reading leaves alone; then the statements from these. -/

namespace Sys2Proof.Machine

/-! ## The window as bytes and as values (R41, R42) -/

/-- The register an address lies in, by arithmetic (R41). -/
theorem windowReg_eq_of_val {a : Nat} {r : Reg} (hr : r.val = a / 32) : windowReg a = r :=
  Fin.ext (by rw [windowReg_val a (by omega), hr])

theorem windowByte_of_val (s : State) {a : Nat} {r : Reg} (hr : r.val = a / 32) :
    s.windowByte a = wordByte (s.reg r) (a % 32) := by
  rw [State.windowByte, windowReg_eq_of_val hr]

@[simp] theorem windowBytes_nextTurn (s : State) (a n : Nat) : s.nextTurn.windowBytes a n = s.windowBytes a n :=
  windowBytes_congr (nextTurn_regs s) a n

@[simp] theorem windowBytes_setScript (s : State) (rest : List HostAction) (a n : Nat) :
    (s.setScript rest).windowBytes a n = s.windowBytes a n :=
  windowBytes_congr (setScript_regs s rest) a n

@[simp] theorem windowBytes_answer (s : State) (r : Reply) (a n : Nat) :
    (s.answer r).windowBytes a n = s.windowBytes a n :=
  windowBytes_congr (answer_regs s r) a n

/-- One byte more at the top of a slice of `8 * n` bits. -/
theorem byte_mul_add_slice (w e n : Nat) :
    w / 2 ^ (e + 8 * n) % 2 ^ 8 * 2 ^ (8 * n) + w / 2 ^ e % 2 ^ (8 * n) = w / 2 ^ e % 2 ^ (8 * (n + 1)) := by
  rw [Nat.mul_succ, Nat.pow_add 2 (8 * n) 8, Nat.mod_mul, Nat.pow_add 2 e, ← Nat.div_div_eq_div_mul, Nat.mul_comm,
    Nat.add_comm]

/-- `n` bytes from byte `k` of one register are the slice of its value below bit `256 − 8k` (R41, R42). -/
theorem bytesValue_windowBytes (s : State) (r : Reg) (n k : Nat) (h : k + n ≤ 32) :
    bytesValue (s.windowBytes (32 * r.val + k) n) = (s.reg r).toNat / 2 ^ (8 * (32 - k - n)) % 2 ^ (8 * n) := by
  induction n generalizing k with
  | zero => simp [State.windowBytes, bytesValue, Nat.mod_one]
  | succ n ih =>
    have hbyte : s.windowByte (32 * r.val + k) = wordByte (s.reg r) k := by
      rw [windowByte_of_val s (r := r) (by omega)]
      congr 1
      omega
    have hlow : 8 * (32 - (k + 1) - n) = 8 * (32 - k - (n + 1)) := by omega
    have hhigh : 248 - 8 * k = 8 * (32 - k - (n + 1)) + 8 * n := by omega
    rw [State.windowBytes, bytesValue, windowBytes_length, hbyte, wordByte_toNat, Nat.add_assoc, ih (k + 1) (by omega),
      hlow, hhigh, byte_mul_add_slice]

/-- 32 bytes from byte 0 of a register are the register (R42). -/
theorem bytesValue_windowBytes_reg (s : State) (r : Reg) :
    bytesValue (s.windowBytes (32 * r.val) 32) = (s.reg r).toNat := by
  have h := bytesValue_windowBytes s r 32 0 (by omega)
  simpa [Nat.mod_eq_of_lt (s.reg r).isLt] using h

/-- Eight bytes from byte `8(3−j)` of a register are its limb `j` (R42). -/
theorem bytesValue_windowBytes_limb (s : State) (r : Reg) {j : Nat} (hj : j < 4) :
    bytesValue (s.windowBytes (32 * r.val + 8 * (3 - j)) 8) = (s.reg r).toNat / 2 ^ (64 * j) % 2 ^ 64 := by
  have hbits : 8 * (32 - 8 * (3 - j) - 8) = 64 * j := by omega
  rw [bytesValue_windowBytes s r 8 (8 * (3 - j)) (by omega), hbits]

/-! ## The bytes after a write (R43, R53) -/

/-- Every byte a write names reads as the byte written. -/
theorem windowByte_setWindowBytes_of_lt (s : State) {a k : Nat} {data : List Byte} (ha : a + data.length ≤ 512)
    (hk : k < data.length) : some ((s.setWindowBytes a data).windowByte (a + k)) = data[k]? := by
  rw [windowByte_setWindowBytes data s a (a + k) ha (by omega), if_pos (by omega), Nat.add_sub_cancel_left]
  simp [hk]

/-- Reading the bytes just written gives them back. -/
theorem windowBytes_setWindowBytes (s : State) {a : Nat} {data : List Byte} (ha : a + data.length ≤ 512) :
    (s.setWindowBytes a data).windowBytes a data.length = data := by
  refine List.ext_getElem? fun k => ?_
  by_cases hk : k < data.length
  · rw [getElem?_windowBytes _ _ _ _ hk, windowByte_setWindowBytes_of_lt s ha hk]
  · rw [List.getElem?_eq_none (by simpa using hk), List.getElem?_eq_none (by simpa using hk)]

/-- 32 bytes written from byte 0 of a register make it their big-endian value. -/
theorem reg_setWindowBytes_toNat (s : State) (r : Reg) {data : List Byte} (h : data.length = 32) :
    ((s.setWindowBytes (32 * r.val) data).reg r).toNat = bytesValue data := by
  have hread := windowBytes_setWindowBytes s (a := 32 * r.val) (data := data) (by omega)
  rw [h] at hread
  rw [← bytesValue_windowBytes_reg, hread]

/-- Writing window bytes leaves the flags, FAULT, FCMD and the packet in progress alone. -/
theorem setWindowBytes_status (s : State) (a : Nat) (data : List Byte) :
    (s.setWindowBytes a data).c = s.c ∧ (s.setWindowBytes a data).v = s.v ∧
      (s.setWindowBytes a data).fault = s.fault ∧ (s.setWindowBytes a data).fcmd = s.fcmd ∧
      (s.setWindowBytes a data).inFlight = s.inFlight := by
  obtain ⟨regs, hframe⟩ := setWindowBytes_frame s a data
  simp [hframe]

/-! ## An access that is not refused (R42, R43, R45) -/

/-- An aligned access of a legal size that begins in the window ends in it (R45). -/
theorem add_le_of_aligned {a n : Nat} (hn : n = 1 ∨ n = 8 ∨ n = 32) (ha : a < 512) (halign : a % n = 0) :
    a + n ≤ 512 := by
  rcases hn with rfl | rfl | rfl <;> omega

theorem hostWindowRead_of_ok {s : State} {a n : Nat} (h : windowResponse a n s.busy = .ok) :
    s.hostWindowRead a n = s.answer (.windowRead .ok (s.windowBytes a n)) := by
  simp [State.hostWindowRead, h]

theorem hostWindowWrite_of_ok {s : State} {a : Nat} {data : List Byte} (h : windowResponse a data.length s.busy = .ok) :
    s.hostWindowWrite a data = (s.setWindowBytes a data).answer (.windowWrite .ok) := by
  simp [State.hostWindowWrite, h]

/-- The host's turn with a window read that is not refused. -/
theorem step_windowRead_of_ok {s : State} {a n : Nat} {rest : List HostAction} (hturn : HostTurn s (.windowRead a n) rest)
    (h : windowResponse a n s.busy = .ok) :
    step s = .next ((s.nextTurn.setScript rest).answer (.windowRead .ok (s.windowBytes a n))) := by
  rw [step_of_hostTurn hturn, State.hostAct, hostWindowRead_of_ok (s := s.nextTurn.setScript rest) h,
    windowBytes_setScript, windowBytes_nextTurn]

/-- The host's turn with a window write that is not refused. -/
theorem step_windowWrite_of_ok {s : State} {a : Nat} {data : List Byte} {rest : List HostAction}
    (hturn : HostTurn s (.windowWrite a data) rest) (h : windowResponse a data.length s.busy = .ok) :
    step s = .next (((s.nextTurn.setScript rest).setWindowBytes a data).answer (.windowWrite .ok)) := by
  rw [step_of_hostTurn hturn, State.hostAct, hostWindowWrite_of_ok (s := s.nextTurn.setScript rest) h]

/-- Settles O48: byte `k` of the answer is a slice of the register it lies in, and bytes of one register add up to a slice
of its value. -/
theorem windowReadIsBigEndian : Obligations.WindowReadIsBigEndian := by
  refine ⟨fun s a n rest hturn hbusy hn ha halign => ?_, bytesValue_windowBytes_reg,
    fun s r j hj => bytesValue_windowBytes_limb s r hj⟩
  have hok : windowResponse a n s.busy = .ok := (windowResponse_ok_iff _ _ _).2 ⟨hn, ha, halign, hbusy⟩
  refine ⟨_, s.windowBytes a n, step_windowRead_of_ok hturn hok, rfl, rfl, windowBytes_length s a n, fun k r hk hr => ?_⟩
  rw [getElem?_windowBytes s n a k hk, windowByte_of_val s hr, wordByte]

/-- Settles O49: the written bytes and the others by `windowByte_setWindowBytes`, the status by `setWindowBytes_status`. -/
theorem windowWriteSetsItsBytes : Obligations.WindowWriteSetsItsBytes := by
  intro s a data rest hturn hbusy hn ha halign
  have hok : windowResponse a data.length s.busy = .ok := (windowResponse_ok_iff _ _ _).2 ⟨hn, ha, halign, hbusy⟩
  have hend : a + data.length ≤ 512 := add_le_of_aligned hn ha halign
  obtain ⟨hc, hv, hfault, hfcmd, hinFlight⟩ := setWindowBytes_status (s.nextTurn.setScript rest) a data
  refine ⟨_, step_windowWrite_of_ok hturn hok, rfl, fun k hk => windowByte_setWindowBytes_of_lt _ hend hk,
    fun b hb hout => ?_, hc, hv, hfault, hfcmd, hinFlight, ?_⟩
  · exact (windowByte_setWindowBytes data _ a b hend hb).trans (if_neg (by omega))
  · rintro r rfl hlength
    exact reg_setWindowBytes_toNat _ r hlength

/-- Settles O54: the write leaves BUSY at 0, so the read of the same bytes is not refused either. -/
theorem readAfterWriteReturnsIt : Obligations.ReadAfterWriteReturnsIt := by
  intro s a data rest hturn hbusy hn ha halign
  have hok : windowResponse a data.length s.busy = .ok := (windowResponse_ok_iff _ _ _).2 ⟨hn, ha, halign, hbusy⟩
  refine ⟨_, step_windowWrite_of_ok hturn hok, fun hturn' => ⟨_, step_windowRead_of_ok hturn' ?_, ?_⟩⟩
  · rwa [busy_answer, setWindowBytes_busy]
  · rw [answer_reply, windowBytes_answer, windowBytes_setWindowBytes _ (add_le_of_aligned hn ha halign)]

/-! ## Which answer an access gets (R45, R46, R47) -/

/-- When each of the five answers is given: a refusal where its own condition holds and none earlier in the order does. -/
theorem windowResponse_iffs (a n : Nat) (busy : Bool) :
    (windowResponse a n busy = .errSize ↔ n ≠ 1 ∧ n ≠ 8 ∧ n ≠ 32) ∧
    (windowResponse a n busy = .errRange ↔ (n = 1 ∨ n = 8 ∨ n = 32) ∧ 512 ≤ a) ∧
    (windowResponse a n busy = .errAlign ↔ (n = 1 ∨ n = 8 ∨ n = 32) ∧ a < 512 ∧ a % n ≠ 0) ∧
    (windowResponse a n busy = .errBusy ↔ (n = 1 ∨ n = 8 ∨ n = 32) ∧ a < 512 ∧ a % n = 0 ∧ busy = true) ∧
    (windowResponse a n busy = .ok ↔ (n = 1 ∨ n = 8 ∨ n = 32) ∧ a < 512 ∧ a % n = 0 ∧ busy = false) := by
  have hlegal : (n = 1 ∨ n = 8 ∨ n = 32) ↔ ¬(n ≠ 1 ∧ n ≠ 8 ∧ n ≠ 32) := by omega
  unfold windowResponse
  rw [hlegal, ← Nat.not_le]
  by_cases hsize : n ≠ 1 ∧ n ≠ 8 ∧ n ≠ 32
  · simp [hsize]
  · by_cases hrange : 512 ≤ a
    · simp [hsize, hrange]
    · by_cases halign : a % n = 0
      · cases busy <;> simp [hsize, hrange, halign]
      · simp [hsize, hrange, halign]

/-- A refused write does nothing but answer (R46). -/
theorem hostWindowWrite_of_refused {s : State} {a : Nat} {data : List Byte}
    (h : windowResponse a data.length s.busy ≠ .ok) :
    s.hostWindowWrite a data = s.answer (.windowWrite (windowResponse a data.length s.busy)) := by
  simp [State.hostWindowWrite, h]

/-- Settles O50: reads and writes are answered by the same function, and both act on the window only when it says OK. -/
theorem windowRefusalsInOrder : Obligations.WindowRefusalsInOrder := by
  constructor
  · intro s a n rest hturn
    exact ⟨_, windowResponse a n s.busy, _, step_of_hostTurn hturn, rfl, rfl, rfl, fun hrefused => if_neg hrefused,
      windowResponse_iffs a n s.busy⟩
  · intro s a data rest hturn
    refine ⟨_, windowResponse a data.length s.busy, step_of_hostTurn hturn, rfl, ?_, fun hrefused => ?_,
      windowResponse_iffs a data.length s.busy⟩
    · obtain ⟨regs, hframe⟩ := hostWindowWrite_frame (s.nextTurn.setScript rest) a data
      rw [State.hostAct, hframe]
      rfl
    · rw [State.hostAct, hostWindowWrite_of_refused (s := s.nextTurn.setScript rest) hrefused]
      rfl

/-! ## Reading has no effect (R50), and a control write none either (R49) -/

@[simp] theorem observe_nextTurn (s : State) : observe s.nextTurn = observe s := rfl
@[simp] theorem observe_setScript (s : State) (rest : List HostAction) : observe (s.setScript rest) = observe s := rfl
@[simp] theorem observe_hostWindowRead (s : State) (a n : Nat) : observe (s.hostWindowRead a n) = observe s := rfl
@[simp] theorem observe_hostControlRead (s : State) (a : Nat) : observe (s.hostControlRead a) = observe s := rfl

/-- Having answered a read, the block answers the same read with the same bytes. -/
theorem hostWindowRead_reply_again (s : State) (rest : List HostAction) (a n : Nat) :
    (((s.hostWindowRead a n).nextTurn.setScript rest).hostWindowRead a n).reply = (s.hostWindowRead a n).reply := by
  simp [State.hostWindowRead]

/-- STATUS and FCMD depend on nothing that a read, a turn or the host's script touches. -/
theorem hostControlRead_reply_again (s : State) (rest : List HostAction) (a : Nat) :
    (((s.hostControlRead a).nextTurn.setScript rest).hostControlRead a).reply = (s.hostControlRead a).reply := rfl

/-- Settles O53: a read changes only `reply`, `script` and `turns`, and no answer depends on these. -/
theorem readsAreIdempotent : Obligations.ReadsAreIdempotent := by
  rintro s a rest (⟨addr, n, rfl⟩ | ⟨addr, rfl⟩) hturn
  · exact ⟨_, step_of_hostTurn hturn, by simp [State.hostAct], by simp [State.hostAct], fun hturn' =>
      ⟨_, step_of_hostTurn hturn', hostWindowRead_reply_again _ rest addr n, by simp [State.hostAct],
        by simp [State.hostAct]⟩⟩
  · exact ⟨_, step_of_hostTurn hturn, by simp [State.hostAct], by simp [State.hostAct], fun hturn' =>
      ⟨_, step_of_hostTurn hturn', hostControlRead_reply_again _ rest addr, by simp [State.hostAct],
        by simp [State.hostAct]⟩⟩

/-- Settles O52: a control write does nothing but answer ERR_RO. -/
theorem controlWriteIsRefused : Obligations.ControlWriteIsRefused :=
  fun _ a x _ hturn => ⟨_, step_of_hostTurn hturn, hostControlWrite_reply _ a x, rfl, rfl, rfl⟩

end Sys2Proof.Machine
end

section
/-! The encoding obligations (30_encoding.md R60 to R68): a header is its fields, a format's mask is its unused fields, and
the decoder read backwards through the laws of `commandOf`. -/

namespace Sys2Proof

open Machine

/-! ## A header is its fields (R60) -/

/-- A header equals an encoded one exactly when it has its fields and reserved bits 0. -/
theorem eq_headerOf_iff (h : Header) {opc : Nat} (rd rs1 rs2 rs3 : Reg) (ho : opc < 256) :
    h = headerOf opc rd rs1 rs2 rs3 ↔ (hdrOpc h).toNat = opc ∧ hdrResv h = 0 ∧
      hdrRd h = rd ∧ hdrRs1 h = rs1 ∧ hdrRs2 h = rs2 ∧ hdrRs3 h = rs3 := by
  constructor
  · rintro rfl
    exact Laws.headerOf_fields opc rd rs1 rs2 rs3 ho
  · rintro ⟨hopc, hresv, rfl, rfl, rfl, rfl⟩
    apply BitVec.eq_of_toNat_eq
    rw [headerOf_toNat _ _ _ _ _ ho, header_toNat h, hopc, hresv]
    simp

/-! ## The encoder, read back (R62, R65, R68) -/

/-- The encoded header of every command carries its fields and 0 elsewhere: the laws per command, put together. -/
theorem encodedFields (i : Instr) : Laws.EncodedFields.Statement i := by
  cases i
  exacts [Laws.EncodedFields.nop, Laws.EncodedFields.adc64 .., Laws.EncodedFields.sbb64 .., Laws.EncodedFields.mulw64 ..,
    Laws.EncodedFields.madc64 .., Laws.EncodedFields.mov .., Laws.EncodedFields.clr _, Laws.EncodedFields.one _,
    Laws.EncodedFields.all1 _, Laws.EncodedFields.lds64 .., Laws.EncodedFields.ldu64 .., Laws.EncodedFields.wrflags _,
    Laws.EncodedFields.neg .., Laws.EncodedFields.add .., Laws.EncodedFields.sub .., Laws.EncodedFields.addo ..,
    Laws.EncodedFields.subo .., Laws.EncodedFields.cmp .., Laws.EncodedFields.mul .., Laws.EncodedFields.mulo ..,
    Laws.EncodedFields.pow .., Laws.EncodedFields.quo .., Laws.EncodedFields.rem .., Laws.EncodedFields.udivrem ..,
    Laws.EncodedFields.shl .., Laws.EncodedFields.shr .., Laws.EncodedFields.sqrt ..]

theorem selectCommand_encode (i : Instr) : selectCommand (encode i) = some i := by
  obtain ⟨ho, -, hrd, hrs1, hrs2, hrs3⟩ := Laws.headerOf_fields i.opcode i.regFields.rd i.regFields.rs1
    i.regFields.rs2 i.regFields.rs3 (opcode_lt i)
  simp only [selectCommand, encode, Instr.header, ho, hrd, hrs1, hrs2, hrs3]
  exact commandOf_encode i

/-- A command's immediate lies in the bits its format uses exactly when the command has an encoding: formats without an
immediate have 0, format I uses all 64 bits, and format F asks WRFLAGS' value to be below 4. -/
theorem unusedImmZero_immediate (i : Instr) : unusedImmZero i.format i.immediate = i.WellFormed := by
  cases i with
  | lds64 rd imm | ldu64 rd imm =>
    simp [unusedImmZero, Instr.format, Format.uses, Instr.immediate, Instr.WellFormed, imm.isLt]
  | wrflags imm =>
    change decide (imm.toNat / 4 = 0) = decide (imm.toNat ≤ 3)
    rw [decide_eq_decide]
    omega
  | _ => simp [unusedImmZero, Instr.immediate, Instr.WellFormed]

/-- Settles O1: the packet selects its own command, and the decoder's three checks pass. -/
theorem decodeOfEncode : Obligations.DecodeOfEncode := by
  intro i hwf
  obtain ⟨-, hresv, hregs⟩ := encodedFields i
  exact (decode_eq_command_iff _ _).2
    ⟨selectCommand_encode i, hresv, hregs, (unusedImmZero_immediate i).trans hwf⟩

/-! ## The decoder, written back (R62, R66, R68) -/

/-- The register fields of a header in which every unused one is 0: keeping the used ones only changes nothing. -/
theorem used_fields_of_unusedRegsZero {fmt : Format} {h : Header} (hz : unusedRegsZero fmt h = true) :
    (if fmt.uses.rd then hdrRd h else 0) = hdrRd h ∧ (if fmt.uses.rs1 then hdrRs1 h else 0) = hdrRs1 h ∧
    (if fmt.uses.rs2 then hdrRs2 h else 0) = hdrRs2 h ∧ (if fmt.uses.rs3 then hdrRs3 h else 0) = hdrRs3 h := by
  simp only [unusedRegsZero, Bool.and_eq_true, Bool.or_eq_true, beq_iff_eq] at hz
  obtain ⟨⟨⟨hrd, hrs1⟩, hrs2⟩, hrs3⟩ := hz
  simp only [ite_eq_left_iff, Bool.not_eq_true]
  exact ⟨fun hu => (hrd.resolve_left (by simp [hu])).symm, fun hu => (hrs1.resolve_left (by simp [hu])).symm,
    fun hu => (hrs2.resolve_left (by simp [hu])).symm, fun hu => (hrs3.resolve_left (by simp [hu])).symm⟩

/-- Settles O2: the fields a decoded command was read from, with the unused ones 0, are the whole packet. -/
theorem encodeOfDecode : Obligations.EncodeOfDecode := by
  intro p i hdecode
  obtain ⟨hselect, hresv, hregs, himm⟩ := (decode_eq_command_iff p i).1 hdecode
  obtain ⟨hopc, hfields, himmediate⟩ := commandOf_eq_some hselect
  obtain ⟨hrd, hrs1, hrs2, hrs3⟩ := used_fields_of_unusedRegsZero hregs
  rw [hrd, hrs1, hrs2, hrs3] at hfields
  have himm_eq : i.immediate = p.imm := by
    rw [himmediate]
    split
    · next hbits => simpa [unusedImmZero, hbits, ← BitVec.toNat_inj, eq_comm] using himm
    · rfl
  have hhdr : p.hdr = i.header := by
    rw [Instr.header, hfields]
    exact (eq_headerOf_iff p.hdr _ _ _ _ (opcode_lt i)).2 ⟨hopc.symm, hresv, rfl, rfl, rfl, rfl⟩
  refine ⟨?_, by rw [encode, himm_eq, ← hhdr]⟩
  rw [← unusedImmZero_immediate, himm_eq]
  exact himm

/-! ## The masks (R62, R64) -/

/-- The header mask of a format, field by field: ones over the opcode and the reserved bits, zeros over the register
fields the format uses and ones over the others. -/
theorem headerMask_fields (fmt : Format) :
    fmt.headerMask.extractLsb' 0 8 = BitVec.allOnes 8 ∧ fmt.headerMask.extractLsb' 24 8 = BitVec.allOnes 8 ∧
    fmt.headerMask.extractLsb' 8 4 = (if fmt.uses.rd then 0 else BitVec.allOnes 4) ∧
    fmt.headerMask.extractLsb' 12 4 = (if fmt.uses.rs1 then 0 else BitVec.allOnes 4) ∧
    fmt.headerMask.extractLsb' 16 4 = (if fmt.uses.rs2 then 0 else BitVec.allOnes 4) ∧
    fmt.headerMask.extractLsb' 20 4 = (if fmt.uses.rs3 then 0 else BitVec.allOnes 4) := by
  cases fmt <;> decide

/-- A masked register field is 0 exactly when it is used or 0 itself. -/
theorem hdrReg_and_eq_zero_iff {h m : Header} {lo : Nat} {used : Bool}
    (hm : m.extractLsb' lo 4 = if used then 0 else BitVec.allOnes 4) :
    hdrReg (h &&& m) lo = 0 ↔ (used || hdrReg h lo == 0) = true := by
  have hval : hdrReg (h &&& m) lo = ⟨(h.extractLsb' lo 4 &&& m.extractLsb' lo 4).toNat, BitVec.isLt _⟩ := by
    simp only [hdrReg, BitVec.extractLsb'_and]
  cases used
  · rw [hval, hm, if_neg Bool.false_ne_true]
    simp only [BitVec.and_allOnes, Bool.false_or, beq_iff_eq, hdrReg]
  · rw [hval, hm]
    simp

/-- "`hdr AND mask = opc`" of R62: the reserved bits and the unused register fields are 0. -/
theorem and_headerMask_eq_iff (fmt : Format) {h : Header} {opc : Nat} (ho : (hdrOpc h).toNat = opc) :
    h &&& fmt.headerMask = BitVec.ofNat 32 opc ↔ hdrResv h = 0 ∧ unusedRegsZero fmt h = true := by
  obtain ⟨hmopc, hmresv, hmrd, hmrs1, hmrs2, hmrs3⟩ := headerMask_fields fmt
  have hopc : (hdrOpc (h &&& fmt.headerMask)).toNat = opc := by
    rw [← ho, hdrOpc, hdrOpc, BitVec.extractLsb'_and, hmopc, BitVec.and_allOnes]
  have hresv : hdrResv (h &&& fmt.headerMask) = hdrResv h := by
    rw [hdrResv, hdrResv, BitVec.extractLsb'_and, hmresv, BitVec.and_allOnes]
  have hof : BitVec.ofNat 32 opc = headerOf opc 0 0 0 0 := by simp [headerOf]
  rw [hof, eq_headerOf_iff _ _ _ _ _ (ho ▸ (hdrOpc h).isLt)]
  simp only [hopc, hresv, true_and, unusedRegsZero, Bool.and_eq_true, hdrRd, hdrRs1, hdrRs2, hdrRs3,
    hdrReg_and_eq_zero_iff hmrd, hdrReg_and_eq_zero_iff hmrs1, hdrReg_and_eq_zero_iff hmrs2, hdrReg_and_eq_zero_iff hmrs3,
    and_assoc]

/-- The immediate mask of a format has a 1 in every bit the format does not use. -/
theorem immMask_eq (fmt : Format) : fmt.immMask = BitVec.allOnes 64 <<< fmt.uses.immBits := by
  cases fmt <;> decide

theorem and_immMask_eq_zero_iff (fmt : Format) (imm : BitVec 64) :
    imm &&& fmt.immMask = 0 ↔ unusedImmZero fmt imm = true := by
  rw [immMask_eq, ← BitVec.shiftLeft_ushiftRight, unusedImmZero, decide_eq_true_iff, ← BitVec.toNat_inj,
    BitVec.toNat_shiftLeft, BitVec.toNat_ushiftRight, Nat.shiftLeft_eq, Nat.shiftRight_eq_div_pow,
    Nat.mod_eq_of_lt (lt_of_le_of_lt (Nat.div_mul_le_self _ _) imm.isLt)]
  simp

/-- Settles O3: the masks hold exactly when the decoder's checks pass. -/
theorem legalPacketsMeetTheirMask : Obligations.LegalPacketsMeetTheirMask := by
  intro p i hselect
  obtain ⟨hopc, -, -⟩ := commandOf_eq_some hselect
  rw [decode_eq_command_iff, and_headerMask_eq_iff i.format hopc.symm, and_immMask_eq_zero_iff, and_assoc]
  simp [hselect]

/-! ## The conditions of R66, by opcode number -/

theorem not_undefinedOpcode_opcode (i : Instr) : ¬ UndefinedOpcode i.opcode := by
  cases i <;> simp [UndefinedOpcode, Instr.opcode]

/-- R65's table leaves out exactly the opcodes R66 lists. -/
theorem commandOf_eq_none_iff {opc : Nat} (ho : opc < 256) (rd rs1 rs2 rs3 : Reg) (imm : BitVec 64) :
    commandOf opc rd rs1 rs2 rs3 imm = none ↔ UndefinedOpcode opc := by
  constructor
  · intro h
    unfold commandOf at h
    split at h
    case h_28 => simp only [imp_false] at *; unfold UndefinedOpcode; omega
    all_goals cases h
  · intro hundef
    cases h : commandOf opc rd rs1 rs2 rs3 imm with
    | none => rfl
    | some i =>
      obtain ⟨hopc, -, -⟩ := commandOf_eq_some h
      exact absurd (hopc ▸ hundef) (not_undefinedOpcode_opcode i)

/-- The "fields used" column of R62 by opcode number, as R66's conditions list it. -/
theorem uses_eq_of_opcode (i : Instr) :
    i.format.uses.rd = decide (i.opcode ∉ [0x00, 0x16]) ∧
    i.format.uses.rs1 = decide (i.opcode ∉ [0x00, 0x11, 0x12, 0x13, 0x14, 0x15, 0x16]) ∧
    i.format.uses.rs2 = decide (i.opcode ∉ [0x00, 0x10, 0x11, 0x12, 0x13, 0x14, 0x15, 0x16, 0x20, 0x60]) ∧
    i.format.uses.rs3 = decide (i.opcode ∈ [0x04, 0x42]) ∧
    i.format.uses.immBits = if i.opcode ∈ [0x14, 0x15] then 64 else if i.opcode = 0x16 then 2 else 0 := by
  cases i <;> exact ⟨rfl, rfl, rfl, rfl, rfl⟩

theorem hdrReg_eq_zero_iff (h : Header) (lo : Nat) : hdrReg h lo = 0 ↔ h.toNat / 2 ^ lo % 2 ^ 4 = 0 := by
  rw [← hdrReg_val, Fin.ext_iff, Fin.val_zero]

/-- The decoder's check of the register fields, as R66's conditions say it. -/
theorem unusedRegsZero_iff (i : Instr) (h : Header) :
    unusedRegsZero i.format h = true ↔
      (i.opcode ∈ [0x00, 0x16] → h.toNat / 2 ^ 8 % 2 ^ 4 = 0) ∧
      (i.opcode ∈ [0x00, 0x11, 0x12, 0x13, 0x14, 0x15, 0x16] → h.toNat / 2 ^ 12 % 2 ^ 4 = 0) ∧
      (i.opcode ∈ [0x00, 0x10, 0x11, 0x12, 0x13, 0x14, 0x15, 0x16, 0x20, 0x60] → h.toNat / 2 ^ 16 % 2 ^ 4 = 0) ∧
      (i.opcode ∉ [0x04, 0x42] → h.toNat / 2 ^ 20 % 2 ^ 4 = 0) := by
  obtain ⟨hrd, hrs1, hrs2, hrs3, -⟩ := uses_eq_of_opcode i
  simp only [unusedRegsZero, hrd, hrs1, hrs2, hrs3, Bool.and_eq_true, Bool.or_eq_true, decide_eq_true_iff, beq_iff_eq,
    hdrRd, hdrRs1, hdrRs2, hdrRs3, hdrReg_eq_zero_iff, and_assoc, imp_iff_not_or, not_not]

/-- The decoder's check of the immediate, as R66's conditions say it. -/
theorem unusedImmZero_iff (i : Instr) (imm : BitVec 64) :
    unusedImmZero i.format imm = true ↔
      (i.opcode ∉ [0x14, 0x15, 0x16] → imm = 0) ∧ (i.opcode = 0x16 → imm.toNat / 4 = 0) := by
  have hlt := imm.isLt
  have hzero : imm = 0 ↔ imm.toNat = 0 := by rw [← BitVec.toNat_inj]; rfl
  obtain ⟨-, -, -, -, hbits⟩ := uses_eq_of_opcode i
  rw [unusedImmZero, decide_eq_true_iff, hbits, hzero]
  by_cases hI : i.opcode ∈ [0x14, 0x15]
  · have hne : i.opcode ≠ 0x16 := fun he => by simp [he] at hI
    have hmem : i.opcode ∈ [0x14, 0x15, 0x16] := List.mem_append_left [0x16] hI
    simp only [hI, hne, hmem, if_true, not_true, false_imp_iff, and_true, iff_true]
    omega
  · by_cases hF : i.opcode = 0x16
    · simp [hF]
    · have hmem : i.opcode ∉ [0x14, 0x15, 0x16] := by
        simp only [List.mem_cons, List.not_mem_nil] at hI ⊢
        tauto
      simp [hI, hF, hmem]

/-- A packet whose opcode selects a command is illegal exactly when one of the decoder's checks fails (R68). -/
theorem exists_illegal_iff {p : Packet} {i : Instr} (hselect : selectCommand p = some i) :
    (∃ why, decode p = .illegal why) ↔
      ¬ (hdrResv p.hdr = 0 ∧ unusedRegsZero i.format p.hdr = true ∧ unusedImmZero i.format p.imm = true) := by
  have hcommand : decode p = .command i ↔ _ := decode_eq_command_iff p i
  rw [hselect, eq_self, true_and] at hcommand
  rw [← hcommand]
  constructor
  · rintro ⟨why, hwhy⟩ hc
    simp [hwhy] at hc
  · intro hnot
    rcases decode_total p with ⟨j, hj⟩ | hwhy
    · obtain ⟨hj', -⟩ := (decode_eq_command_iff p j).1 hj
      obtain rfl : i = j := Option.some.inj (hselect.symm.trans hj')
      exact absurd hj hnot
    · exact hwhy

/-- The decoder rejects exactly the packets R66 lists. -/
theorem exists_illegal_iff_illegalPacket (p : Packet) : (∃ why, decode p = .illegal why) ↔ IllegalPacket p := by
  have hnone : selectCommand p = none ↔ UndefinedOpcode (p.hdr.toNat % 2 ^ 8) := by
    rw [selectCommand, commandOf_eq_none_iff (hdrOpc p.hdr).isLt, hdrOpc_toNat]
  cases hselect : selectCommand p with
  | none => exact ⟨fun _ => .inl (hnone.1 hselect), fun _ => ⟨.undefinedOpcode, by simp [decode, hselect]⟩⟩
  | some i =>
    have hdefined : ¬ UndefinedOpcode (p.hdr.toNat % 2 ^ 8) := by rw [← hnone, hselect]; exact Option.some_ne_none i
    have hopc : i.opcode = p.hdr.toNat % 2 ^ 8 := (commandOf_eq_some hselect).1.trans (hdrOpc_toNat p.hdr)
    have hresv : hdrResv p.hdr = 0 ↔ p.hdr.toNat / 2 ^ 24 = 0 := by
      rw [← BitVec.toNat_inj, hdrResv_toNat]; rfl
    rw [exists_illegal_iff hselect, hresv, unusedRegsZero_iff, unusedImmZero_iff, hopc]
    simp only [IllegalPacket, hdefined, false_or, not_and_or, Classical.not_imp, or_assoc, ne_eq]

/-- Settles O4: R66's conditions are the decoder's, and executing an illegal packet is taking the fault. -/
theorem illegalPacketsFault : Obligations.IllegalPacketsFault := by
  refine ⟨exists_illegal_iff_illegalPacket, fun s p hturn hillegal => ?_⟩
  obtain ⟨why, hwhy⟩ := (exists_illegal_iff_illegalPacket p).2 hillegal
  refine ⟨_, ?_, faultedPrecisely_takeFault s.nextTurn .illegalCommand p.hdr⟩
  rw [step_of_coreTurn hturn, executePacket, hwhy]

/-- Settles O5: R71's packets, each evaluated both ways. -/
theorem workedEncodings : Obligations.WorkedEncodings := by
  refine ⟨?_, ?_, ?_, ?_, ?_, ?_, ?_, ⟨.reservedHeader, ?_⟩⟩ <;> decide

end Sys2Proof
end

section
/-! Packets as bus words and the step that offers them (30_encoding.md R61; 60_exceptions.md R220), and the faults of a
legal command's operands under its own header (60_exceptions.md R200, R203). -/

namespace Sys2Proof.Machine

/-! ## Packets over a 32-bit bus (R61) -/

theorem packetToBits_fields (p : Packet) :
    (packetToBits p).extractLsb' 0 32 = p.hdr ∧ (packetToBits p).extractLsb' 32 64 = p.imm :=
  ⟨BitVec.extractLsb'_append_eq_right, BitVec.extractLsb'_append_eq_left⟩

theorem packetOfBits_packetToBits (p : Packet) : packetOfBits (packetToBits p) = p := by
  rw [packetOfBits, (packetToBits_fields p).1, (packetToBits_fields p).2]

theorem packetOfBusWords_of_packet (p : Packet) :
    packetOfBusWords [p.hdr, p.imm.extractLsb' 0 32, p.imm.extractLsb' 32 32] = some p := by
  rw [packetOfBusWords, BitVec.extractLsb'_append_extractLsb']

theorem packetOfBusWords_of_short {words : List (BitVec 32)} (h : words.length < 3) :
    packetOfBusWords words = none := by
  match words with
  | [] | [_] | [_, _] => rfl
  | _ :: _ :: _ :: _ => simp only [List.length_cons] at h; omega

/-- Settles O6: the three words are offered as the packet they carry, fewer words as nothing. -/
theorem packetOverBusWords : Obligations.PacketOverBusWords := by
  refine ⟨fun p => ⟨(packetToBits_fields p).1, (packetToBits_fields p).2, packetOfBits_packetToBits p⟩,
    packetOfBusWords_of_packet, fun _ => packetOfBusWords_of_short, fun s p rest hturn => ?_,
    fun s ws rest hturn hlen => ?_⟩
  · have hstep : step s = .next ((s.nextTurn.setScript rest).hostOffer p) := by
      rw [step_of_hostTurn hturn, State.hostAct, State.hostOfferWords, packetOfBusWords_of_packet]
    constructor
    · intro hbusy hhalted
      have hfree : (s.nextTurn.setScript rest).hostOffer p = (s.nextTurn.setScript rest).accept p := by
        simp [State.hostOffer, hbusy, hhalted]
      exact ⟨_, hstep.trans (congrArg _ hfree), rfl, rfl, rfl⟩
    · intro hblocked
      have hwait : (s.nextTurn.setScript rest).hostOffer p = (s.nextTurn.setScript rest).holdOffer p := by
        simp [State.hostOffer, hblocked]
      exact ⟨_, hstep.trans (congrArg _ hwait), rfl, rfl, rfl⟩
  · refine ⟨_, step_of_hostTurn hturn, ?_⟩
    rw [State.hostAct, State.hostOfferWords, packetOfBusWords_of_short hlen]
    exact ⟨rfl, rfl, rfl, rfl⟩

/-! ## Operand faults (R200) -/

/-- A command whose operand condition holds takes that fault under its own header. -/
theorem exec_faultedPrecisely {i : Instr} {s : State} {code : FaultCode} (hcode : faultCondition i s = code)
    (hne : code ≠ .none) : ∃ t, exec i s = .next t ∧ FaultedPrecisely code i.header s t := by
  rcases exec_cases i s with ⟨-, he⟩ | ⟨hnone, -⟩
  · exact ⟨_, hcode ▸ he, faultedPrecisely_takeFault s code i.header⟩
  · exact absurd (hcode.symm.trans hnone) hne

/-- Settles O18: the operand condition of the three divisions, and their headers by R60's sum. -/
theorem zeroDivisorFaults : Obligations.ZeroDivisorFaults := by
  intro rd rd2 rs1 rs2 s hzero
  have hcode {i : Instr} (hi : faultCondition i s = if s.reg rs2 = 0 then .zeroDivision else .none) :
      ∃ t, exec i s = .next t ∧ FaultedPrecisely .zeroDivision i.header s t :=
    exec_faultedPrecisely (hi.trans (if_pos hzero)) (by decide)
  have hquo := hcode (i := .quo rd rs1 rs2) rfl
  have hrem := hcode (i := .rem rd rs1 rs2) rfl
  have hudivrem := hcode (i := .udivrem rd rd2 rs1 rs2) rfl
  simp only [Instr.header, headerOf, Instr.opcode, Instr.regFields, Fin.val_zero, zero_mul, add_zero]
    at hquo hrem hudivrem
  exact ⟨hquo, hrem, hudivrem⟩

/-- Settles O19: a negative argument has bit 255 set, the operand condition of SQRT. -/
theorem negativeRootFaults : Obligations.NegativeRootFaults := by
  intro rd rs1 s hneg
  have hbit : (s.reg rs1).getLsbD 255 = true := (isNeg_iff _).2 hneg
  have hsqrt := exec_faultedPrecisely (i := .sqrt rd rs1) (by rw [faultCondition, hbit, if_pos rfl]) (by decide)
  simp only [Instr.header, headerOf, Instr.opcode, Instr.regFields, Fin.val_zero, zero_mul, add_zero] at hsqrt
  exact hsqrt

end Sys2Proof.Machine
end

section
/-! The assembler obligations (30_encoding.md R69, R70): what each operand reads as, which mnemonic and operands stand for a
command, and how a line of text falls into its mnemonic and operands. -/

namespace Sys2Proof.Machine

/-! ## Operands in both directions (R69) -/

theorem operandReg_eq_some_iff (o : AsmOperand) (r : Reg) : operandReg o = some r ↔ o = .reg r.val := by
  cases o with
  | reg n =>
    simp only [operandReg, AsmOperand.reg.injEq]
    split
    · simp [Fin.ext_iff]
    · have := r.isLt
      simp only [reduceCtorEq, false_iff]
      omega
  | imm n => simp [operandReg]

theorem operandImm_eq_some_iff (lo hi : Int) (o : AsmOperand) (imm : BitVec 64) :
    operandImm lo hi o = some imm ↔ ∃ n, o = .imm n ∧ lo ≤ n ∧ n ≤ hi ∧ BitVec.ofInt 64 n = imm := by
  cases o <;> simp [operandImm, and_assoc]

/-- The bounds of LDS64: an immediate is the signed value of its pattern. -/
theorem operandImm_signed_eq_some_iff (o : AsmOperand) (imm : BitVec 64) :
    operandImm (-2 ^ 63) (2 ^ 63 - 1) o = some imm ↔ o = .imm imm.toInt := by
  rw [operandImm_eq_some_iff]
  constructor
  · rintro ⟨n, rfl, hlo, hhi, rfl⟩
    rw [BitVec.toInt_ofInt_eq_self (by decide) hlo (Int.lt_of_le_sub_one hhi)]
  · rintro rfl
    exact ⟨_, rfl, imm.le_toInt, Int.le_sub_one_of_lt imm.toInt_lt, BitVec.ofInt_toInt⟩

/-- The bounds of LDU64 and WRFLAGS: an immediate is the unsigned value of its pattern. -/
theorem operandImm_unsigned_eq_some_iff {hi : Int} (hhi : hi < 2 ^ 64) (o : AsmOperand) (imm : BitVec 64) :
    operandImm 0 hi o = some imm ↔ o = .imm imm.toNat ∧ (imm.toNat : Int) ≤ hi := by
  rw [operandImm_eq_some_iff]
  constructor
  · rintro ⟨n, rfl, hlo, hn, rfl⟩
    lift n to Nat using hlo
    have hval : (BitVec.ofInt 64 n).toNat = n := by
      rw [BitVec.ofInt_natCast, BitVec.toNat_ofNat]; omega
    rw [hval]
    exact ⟨rfl, hn⟩
  · rintro ⟨rfl, hle⟩
    exact ⟨_, rfl, Int.natCast_nonneg _, hle, by simp⟩

/-! ## The formats' operand lists, as they are written (R69) -/

theorem operands1_iff (f : Reg → Instr) (ops : List AsmOperand) (i : Instr) :
    operands1 f ops = some i ↔ ∃ rd, ops = [.reg rd.val] ∧ f rd = i := by
  simp [operands1_eq_some_iff, operandReg_eq_some_iff]

theorem operands2_iff (f : Reg → Reg → Instr) (ops : List AsmOperand) (i : Instr) :
    operands2 f ops = some i ↔ ∃ rd rs1, ops = [.reg rd.val, .reg rs1.val] ∧ f rd rs1 = i := by
  simp [operands2_eq_some_iff, operandReg_eq_some_iff]

theorem operands3_iff (f : Reg → Reg → Reg → Instr) (ops : List AsmOperand) (i : Instr) :
    operands3 f ops = some i ↔
      ∃ rd rs1 rs2, ops = [.reg rd.val, .reg rs1.val, .reg rs2.val] ∧ f rd rs1 rs2 = i := by
  simp [operands3_eq_some_iff, operandReg_eq_some_iff]

theorem operands4_iff (f : Reg → Reg → Reg → Reg → Instr) (ops : List AsmOperand) (i : Instr) :
    operands4 f ops = some i ↔
      ∃ r1 r2 r3 r4, ops = [.reg r1.val, .reg r2.val, .reg r3.val, .reg r4.val] ∧ f r1 r2 r3 r4 = i := by
  simp [operands4_eq_some_iff, operandReg_eq_some_iff]

theorem operandsImm_signed_iff (f : Reg → BitVec 64 → Instr) (ops : List AsmOperand) (i : Instr) :
    operandsImm f (-2 ^ 63) (2 ^ 63 - 1) ops = some i ↔
      ∃ rd imm, ops = [.reg rd.val, .imm imm.toInt] ∧ f rd imm = i := by
  simp only [operandsImm_eq_some_iff, operandReg_eq_some_iff, operandImm_signed_eq_some_iff]
  simp

theorem operandsImm_unsigned_iff (f : Reg → BitVec 64 → Instr) (ops : List AsmOperand) (i : Instr) :
    operandsImm f 0 (2 ^ 64 - 1) ops = some i ↔ ∃ rd imm, ops = [.reg rd.val, .imm imm.toNat] ∧ f rd imm = i := by
  have hle (imm : BitVec 64) : (imm.toNat : Int) ≤ 2 ^ 64 - 1 := by have := imm.isLt; omega
  simp only [operandsImm_eq_some_iff, operandReg_eq_some_iff,
    operandImm_unsigned_eq_some_iff (show (2 ^ 64 - 1 : Int) < 2 ^ 64 by decide), hle, and_true]
  simp

theorem assembleCommand_wrflags_iff (ops : List AsmOperand) (i : Instr) :
    assembleCommand "wrflags" ops = some i ↔ ∃ imm, imm.toNat ≤ 3 ∧ ops = [.imm imm.toNat] ∧ .wrflags imm = i := by
  match ops with
  | [n] =>
    change (operandImm 0 3 n).map Instr.wrflags = some i ↔ _
    simp only [Option.map_eq_some_iff, operandImm_unsigned_eq_some_iff (show (3 : Int) < 2 ^ 64 by decide),
      List.cons.injEq, and_true]
    exact exists_congr fun imm => by rw [← and_assoc, and_comm (a := imm.toNat ≤ 3)]; norm_cast
  | [] | _ :: _ :: _ => simp [assembleCommand]

/-! ## Mnemonics (R65, R69) -/

/-- A command is what its mnemonic and its operands stand for. -/
theorem assembleCommand_asmName (i : Instr) (hwf : i.WellFormed = true) :
    assembleCommand (asmName i) (asmOperands i) = some i := by
  cases i with
  | nop => rfl
  | clr rd | one rd | all1 rd => exact (operands1_iff ..).2 ⟨rd, rfl, rfl⟩
  | mov rd rs1 | neg rd rs1 | sqrt rd rs1 => exact (operands2_iff ..).2 ⟨rd, rs1, rfl, rfl⟩
  | madc64 r1 r2 r3 r4 | udivrem r1 r2 r3 r4 => exact (operands4_iff ..).2 ⟨r1, r2, r3, r4, rfl, rfl⟩
  | lds64 rd imm => exact (operandsImm_signed_iff ..).2 ⟨rd, imm, rfl, rfl⟩
  | ldu64 rd imm => exact (operandsImm_unsigned_iff ..).2 ⟨rd, imm, rfl, rfl⟩
  | wrflags imm => exact (assembleCommand_wrflags_iff ..).2 ⟨imm, of_decide_eq_true hwf, rfl, rfl⟩
  | adc64 rd rs1 rs2 | sbb64 rd rs1 rs2 | mulw64 rd rs1 rs2 | add rd rs1 rs2 | sub rd rs1 rs2 | addo rd rs1 rs2
  | subo rd rs1 rs2 | cmp rd rs1 rs2 | mul rd rs1 rs2 | mulo rd rs1 rs2 | pow rd rs1 rs2 | quo rd rs1 rs2
  | rem rd rs1 rs2 | shl rd rs1 rs2 | shr rd rs1 rs2 => exact (operands3_iff ..).2 ⟨rd, rs1, rs2, rfl, rfl⟩

/-- A mnemonic and operands stand for a command only when they are that command's, and then it has an encoding: the arms
of `assembleCommand` by the format they read. -/
theorem eq_asmName_of_assembleCommand {m : String} {ops : List AsmOperand} {i : Instr}
    (h : assembleCommand m ops = some i) : i.WellFormed = true ∧ m = asmName i ∧ ops = asmOperands i := by
  unfold assembleCommand at h
  split at h
  case h_1 =>
    split at h
    · next hops => cases h; exact ⟨rfl, rfl, hops⟩
    · cases h
  case h_7 | h_8 | h_9 =>
    obtain ⟨rd, rfl, rfl⟩ := (operands1_iff ..).1 h
    exact ⟨rfl, rfl, rfl⟩
  case h_6 | h_13 | h_27 =>
    obtain ⟨rd, rs1, rfl, rfl⟩ := (operands2_iff ..).1 h
    exact ⟨rfl, rfl, rfl⟩
  case h_5 | h_24 =>
    obtain ⟨r1, r2, r3, r4, rfl, rfl⟩ := (operands4_iff ..).1 h
    exact ⟨rfl, rfl, rfl⟩
  case h_10 =>
    obtain ⟨rd, imm, rfl, rfl⟩ := (operandsImm_signed_iff ..).1 h
    exact ⟨rfl, rfl, rfl⟩
  case h_11 =>
    obtain ⟨rd, imm, rfl, rfl⟩ := (operandsImm_unsigned_iff ..).1 h
    exact ⟨rfl, rfl, rfl⟩
  case h_12 =>
    obtain ⟨imm, hle, rfl, rfl⟩ := (assembleCommand_wrflags_iff ops i).1 h
    exact ⟨decide_eq_true hle, rfl, rfl⟩
  case h_28 => cases h
  all_goals
    obtain ⟨rd, rs1, rs2, rfl, rfl⟩ := (operands3_iff ..).1 h
    exact ⟨rfl, rfl, rfl⟩

theorem assembleCommand_eq_some_iff (m : String) (ops : List AsmOperand) (i : Instr) :
    assembleCommand m ops = some i ↔ i.WellFormed = true ∧ m = asmName i ∧ ops = asmOperands i :=
  ⟨eq_asmName_of_assembleCommand, fun ⟨hwf, hm, hops⟩ => hm ▸ hops ▸ assembleCommand_asmName i hwf⟩

/-! ## The commands of a line have encodings (R66, R70) -/

/-- Every command of an expansion has an encoding: R70 writes the flags 0 and 1 only. -/
theorem wellFormed_of_expandPseudo {q : Pseudo} {is : List Instr} (h : expandPseudo q = some is) :
    ∀ i ∈ is, i.WellFormed = true := by
  cases q with
  | clrf | setc | sar | copy => cases h; simp [Instr.WellFormed]
  | ldmin | ldmax =>
    simp only [expandPseudo] at h
    split at h
    · cases h
    · cases h; simp [Instr.WellFormed]
  | li rd n =>
    simp only [expandPseudo] at h
    split at h
    · cases h; simp [Instr.WellFormed]
    · split at h
      · cases h; simp [Instr.WellFormed]
      · cases h

/-- Everything a line that reads can stand for: nothing, one command, or an expansion. -/
theorem assembleLine_cases {line : String} {is : List Instr} (h : assembleLine line = some is) :
    is = [] ∨ (∃ m ops i, assembleCommand m ops = some i ∧ is = [i]) ∨ ∃ q, expandPseudo q = some is := by
  simp only [assembleLine] at h
  split at h
  · cases h; exact .inl rfl
  split at h
  · cases h
  split at h
  · next i hi => cases h; exact .inr (.inl ⟨_, _, i, hi, rfl⟩)
  · obtain ⟨q, -, hq⟩ := Option.bind_eq_some_iff.1 h
    exact .inr (.inr ⟨q, hq⟩)

/-- Settles O55: the operand lemmas, the mnemonic table in both directions, and the cases of a line. -/
theorem assembledCommandsHaveEncodings : Obligations.AssembledCommandsHaveEncodings := by
  refine ⟨fun n r => ?_, fun n hn => ?_, fun _ => rfl, fun lo hi n hlo hhi => ?_, fun lo hi n hout => ?_,
    fun _ _ _ => rfl, assembleCommand_eq_some_iff, fun line is hline => ?_⟩
  · rw [operandReg_eq_some_iff, AsmOperand.reg.injEq, eq_comm]
  · exact dif_neg (by omega)
  · exact (operandImm_eq_some_iff ..).2 ⟨n, rfl, hlo, hhi, rfl⟩
  · exact if_neg (by omega)
  · rcases assembleLine_cases hline with rfl | ⟨m, ops, i, hi, rfl⟩ | ⟨q, hq⟩
    · simp
    · simpa using (eq_asmName_of_assembleCommand hi).1
    · exact wellFormed_of_expandPseudo hq

end Sys2Proof.Machine
end

section
/-! The text of a line (30_encoding.md R69): digits have their value, and a line put together from a mnemonic and fields
falls apart into them again. -/

namespace Sys2Proof.Machine

/-! ## Digits -/

theorem digitsValue_eq_foldl {ds : List Char} (hds : ∀ ch ∈ ds, 48 ≤ ch.toNat ∧ ch.toNat ≤ 57) (acc : Nat) :
    digitsValue 10 acc ds = some (ds.foldl (fun acc ch => 10 * acc + (ch.toNat - 48)) acc) := by
  induction ds generalizing acc with
  | nil => rfl
  | cons d ds ih =>
    obtain ⟨hd, hds⟩ := List.forall_mem_cons.1 hds
    have hvalue : digitValue d = some (d.toNat - 48) := if_pos hd
    have hlt : d.toNat - 48 < 10 := by omega
    simp only [digitsValue, hvalue, if_pos hlt, ih hds, List.foldl_cons, Nat.mul_comm]

theorem readNumber_decimal {ds : List Char} (hne : ds ≠ []) (hds : ∀ ch ∈ ds, 48 ≤ ch.toNat ∧ ch.toNat ≤ 57) :
    readNumber 10 ds = some (decimalValue ds) := by
  rw [readNumber, if_neg hne, digitsValue_eq_foldl hds, decimalValue]

/-- Digits read as an immediate: their first character starts no register, and no sign or `0x` stands there. -/
theorem readOperand_decimal {ds : List Char} (hne : ds ≠ []) (hds : ∀ ch ∈ ds, 48 ≤ ch.toNat ∧ ch.toNat ≤ 57) :
    readOperand ds = some (.imm (decimalValue ds)) := by
  unfold readOperand
  split
  case h_1 => have := hds 'r' (by simp); simp at this
  case h_2 => have := hds 'x' (by simp); simp at this
  case h_3 => have := hds '-' (by simp); simp at this
  case h_4 => rw [readNumber_decimal hne hds]; rfl

/-! ## Fields -/

/-- The text of one operand: not empty, and none of the characters that end a field, blanks included. -/
def PlainField (f : List Char) : Prop := f ≠ [] ∧ ∀ ch ∈ f, ch ∉ [' ', '\t', ',', ';']

theorem PlainField.ne_comma {f : List Char} (hf : PlainField f) : ∀ ch ∈ f, ch ≠ ',' := fun ch hch he => by
  simpa [he] using hf.2 ch hch

theorem isBlankChar_of_notMem {ch : Char} {others : List Char} (h : ch ∉ ' ' :: '\t' :: others) :
    isBlankChar ch = false := by
  simp only [List.mem_cons, not_or] at h
  simp [isBlankChar, h.1, h.2.1]

theorem PlainField.not_blank {f : List Char} (hf : PlainField f) : ∀ ch ∈ f, isBlankChar ch = false :=
  fun ch hch => isBlankChar_of_notMem (hf.2 ch hch)

theorem PlainField.trimBlanks_eq {f : List Char} (hf : PlainField f) : trimBlanks f = f :=
  trimBlanks_eq_self f (fun x hx => hf.not_blank x (List.mem_of_mem_head? hx))
    (fun x hx => hf.not_blank x (List.mem_of_getLast? hx))

/-- Text that reads as an operand is not empty. -/
theorem plainField_of_readOperand {f : List Char} {op : AsmOperand} (hread : readOperand f = some op)
    (hchars : ∀ ch ∈ f, ch ∉ [' ', '\t', ',', ';']) : PlainField f :=
  ⟨fun he => by simp [he, readOperand, readNumber] at hread, hchars⟩

theorem joinFields_cons_cons (f g : List Char) (fields : List (List Char)) :
    joinFields (f :: g :: fields) = f ++ ',' :: ' ' :: joinFields (g :: fields) := by simp [joinFields]

/-- The characters of joined fields are those of the fields, a comma and a blank. -/
theorem mem_joinFields {fields : List (List Char)} {ch : Char} (h : ch ∈ joinFields fields) :
    ch = ',' ∨ ch = ' ' ∨ ∃ f ∈ fields, ch ∈ f := by
  induction fields using joinFields.induct with
  | case1 => cases h
  | case2 f => exact .inr (.inr ⟨f, by simp, h⟩)
  | case3 f rest hrest ih =>
    obtain ⟨g, fields, rfl⟩ := List.exists_cons_of_ne_nil hrest
    rw [joinFields_cons_cons] at h
    simp only [List.mem_append, List.mem_cons] at h
    rcases h with h | h | h | h
    · exact .inr (.inr ⟨f, by simp, h⟩)
    · exact .inl h
    · exact .inr (.inl h)
    · rcases ih h with h | h | ⟨k, hk, h⟩
      · exact .inl h
      · exact .inr (.inl h)
      · exact .inr (.inr ⟨k, List.mem_cons_of_mem f hk, h⟩)

theorem joinFields_ne_nil {fields : List (List Char)} (hne : fields ≠ []) (hplain : ∀ f ∈ fields, PlainField f) :
    joinFields fields ≠ [] := by
  match fields with
  | [f] => exact (hplain f (by simp)).1
  | f :: g :: fields => simp [joinFields_cons_cons]

/-- Joined fields begin with the first character of a field. -/
theorem not_blank_of_head?_joinFields {fields : List (List Char)} (hplain : ∀ f ∈ fields, PlainField f) {x : Char}
    (hx : (joinFields fields).head? = some x) : isBlankChar x = false := by
  match fields with
  | [] => cases hx
  | [f] => exact (hplain f (by simp)).not_blank x (List.mem_of_mem_head? hx)
  | f :: g :: fields =>
    have hf := hplain f (by simp)
    rw [joinFields_cons_cons, List.head?_append_of_ne_nil _ hf.1] at hx
    exact hf.not_blank x (List.mem_of_mem_head? hx)

/-- Joined fields end with the last character of a field. -/
theorem not_blank_of_getLast?_joinFields {fields : List (List Char)} (hplain : ∀ f ∈ fields, PlainField f) {x : Char}
    (hx : (joinFields fields).getLast? = some x) : isBlankChar x = false := by
  induction fields using joinFields.induct with
  | case1 => cases hx
  | case2 f => exact (hplain f (by simp)).not_blank x (List.mem_of_getLast? hx)
  | case3 f rest hrest ih =>
    obtain ⟨g, fields, rfl⟩ := List.exists_cons_of_ne_nil hrest
    have hplain' : ∀ k ∈ g :: fields, PlainField k := fun k hk => hplain k (List.mem_cons_of_mem f hk)
    refine ih hplain' ?_
    rwa [joinFields_cons_cons, List.getLast?_append_of_ne_nil _ (by simp), List.getLast?_cons_cons,
      List.getLast?_cons_of_ne_nil (joinFields_ne_nil hrest hplain')] at hx

theorem trimBlanks_joinFields {fields : List (List Char)} (hplain : ∀ f ∈ fields, PlainField f) :
    trimBlanks (joinFields fields) = joinFields fields :=
  trimBlanks_eq_self _ (fun _ => not_blank_of_head?_joinFields hplain) fun _ => not_blank_of_getLast?_joinFields hplain

/-! ## Operands from joined fields -/

theorem splitCommas_ne_nil (cs : List Char) : splitCommas cs ≠ [] := by
  induction cs with
  | nil => simp [splitCommas]
  | cons ch cs ih =>
    obtain ⟨f, fields, hsplit⟩ := List.exists_cons_of_ne_nil ih
    rw [splitCommas, hsplit]
    split <;> simp

/-- A blank in front of the fields is not read. -/
theorem readOperands_splitCommas_cons_blank (cs : List Char) :
    readOperands (splitCommas (' ' :: cs)) = readOperands (splitCommas cs) := by
  obtain ⟨f, fields, hsplit⟩ := List.exists_cons_of_ne_nil (splitCommas_ne_nil cs)
  rw [splitCommas, hsplit]
  simp [readOperands, trimBlanks_cons_blank]

/-- The field is the text of the operand. -/
def FieldReads (f : List Char) (op : AsmOperand) : Prop := PlainField f ∧ readOperand f = some op

/-- One text per operand, each of which reads as its operand. -/
theorem forall₂_fieldReads {fields : List (List Char)} {ops : List AsmOperand}
    (hread : fields.map readOperand = ops.map some) (hchars : ∀ f ∈ fields, ∀ ch ∈ f, ch ∉ [' ', '\t', ',', ';']) :
    List.Forall₂ FieldReads fields ops := by
  induction fields generalizing ops with
  | nil => rw [List.map_eq_nil_iff.1 hread.symm]; exact .nil
  | cons f fields ih =>
    obtain ⟨op, ops, rfl⟩ : ∃ op ops', ops = op :: ops' := List.exists_cons_of_ne_nil (by rintro rfl; simp at hread)
    obtain ⟨hf, hfields⟩ := List.cons.inj hread
    obtain ⟨hcf, hcfields⟩ := List.forall_mem_cons.1 hchars
    exact .cons ⟨plainField_of_readOperand hf hcf, hf⟩ (ih hfields hcfields)

theorem plainField_of_forall₂ {fields : List (List Char)} {ops : List AsmOperand}
    (h : List.Forall₂ FieldReads fields ops) : ∀ f ∈ fields, PlainField f := by
  induction h with
  | nil => simp
  | cons hf _ ih => exact List.forall_mem_cons.2 ⟨hf.1, ih⟩

/-- Joined fields read as the fields' operands. -/
theorem readOperands_splitCommas_joinFields {fields : List (List Char)} {ops : List AsmOperand}
    (h : List.Forall₂ FieldReads fields ops) (hne : fields ≠ []) :
    readOperands (splitCommas (joinFields fields)) = some ops := by
  induction h with
  | nil => exact absurd rfl hne
  | @cons f op fields ops hf hrest ih =>
    obtain ⟨hplain, hread⟩ := hf
    cases hrest with
    | nil =>
      rw [joinFields, splitCommas_eq_singleton f hplain.ne_comma]
      simp [readOperands, hplain.trimBlanks_eq, hread]
    | cons hg hrest =>
      rw [joinFields_cons_cons, splitCommas_append f _ hplain.ne_comma, readOperands,
        readOperands_splitCommas_cons_blank, ih (by simp), hplain.trimBlanks_eq, hread]
      rfl

/-! ## A line of a mnemonic and fields -/

theorem dropWhile_isBlankChar_eq_self {cs : List Char} (h : ∀ x, cs.head? = some x → isBlankChar x = false) :
    cs.dropWhile isBlankChar = cs := by
  cases cs with
  | nil => rfl
  | cons c cs => simp [h c rfl]

/-- The text of a mnemonic: not empty, and none of the characters that end it. -/
def PlainName (name : List Char) : Prop := name ≠ [] ∧ ∀ ch ∈ name, ch ∉ [' ', '\t', ';']

theorem PlainName.not_blank {name : List Char} (hname : PlainName name) : ∀ ch ∈ name, isBlankChar ch = false :=
  fun ch hch => isBlankChar_of_notMem (hname.2 ch hch)

/-- A blank at the end of a mnemonic is dropped. -/
theorem trimBlanks_append_blank {name : List Char} (hname : PlainName name) :
    trimBlanks (name ++ [' ']) = name := by
  have hfront : (name ++ [' ']).dropWhile isBlankChar = name ++ [' '] :=
    dropWhile_isBlankChar_eq_self fun x hx => by
      rw [List.head?_append_of_ne_nil _ hname.1] at hx
      exact hname.not_blank x (List.mem_of_mem_head? hx)
  have hback : name.reverse.dropWhile isBlankChar = name.reverse :=
    dropWhile_isBlankChar_eq_self fun x hx => hname.not_blank x (List.mem_reverse.1 (List.mem_of_mem_head? hx))
  have hblank : isBlankChar ' ' = true := rfl
  rw [trimBlanks, hfront, List.reverse_append, List.reverse_singleton, List.singleton_append, List.dropWhile_cons,
    if_pos hblank, hback, List.reverse_reverse]

/-- What of a line stands after its mnemonic, without the blanks at the line's end. -/
def afterName (fields : List (List Char)) : List Char := if fields = [] then [] else ' ' :: joinFields fields

section
variable {name : List Char} {fields : List (List Char)} {ops : List AsmOperand}

theorem trimBlanks_line (hname : PlainName name) (hfields : List.Forall₂ FieldReads fields ops) :
    trimBlanks (name ++ ' ' :: joinFields fields) = name ++ afterName fields := by
  have hplain := plainField_of_forall₂ hfields
  unfold afterName
  split
  · next hnil => rw [hnil, List.append_nil]; exact trimBlanks_append_blank hname
  · next hnil =>
    refine trimBlanks_eq_self _ (fun x hx => ?_) (fun x hx => ?_)
    · rw [List.head?_append_of_ne_nil _ hname.1] at hx
      exact hname.not_blank x (List.mem_of_mem_head? hx)
    · rw [List.getLast?_append_of_ne_nil _ (by simp), List.getLast?_cons_of_ne_nil (joinFields_ne_nil hnil hplain)] at hx
      exact not_blank_of_getLast?_joinFields hplain hx

theorem takeWhile_line (hname : PlainName name) :
    (name ++ afterName fields).takeWhile (fun ch => !isBlankChar ch) = name := by
  rw [List.takeWhile_append_of_pos fun ch hch => by simp [hname.not_blank ch hch]]
  unfold afterName
  split <;> simp [isBlankChar]

theorem dropWhile_line (hname : PlainName name) :
    (name ++ afterName fields).dropWhile (fun ch => !isBlankChar ch) = afterName fields := by
  rw [List.dropWhile_append_of_pos fun ch hch => by simp [hname.not_blank ch hch]]
  unfold afterName
  split <;> simp [isBlankChar]

theorem trimBlanks_afterName (hfields : List.Forall₂ FieldReads fields ops) :
    trimBlanks (afterName fields) = joinFields fields := by
  unfold afterName
  split
  · next hnil => rw [hnil]; rfl
  · rw [trimBlanks_cons_blank, trimBlanks_joinFields (plainField_of_forall₂ hfields)]

/-- No comment begins in the text of a mnemonic and fields. -/
theorem line_ne_semicolon (hname : PlainName name) (hfields : List.Forall₂ FieldReads fields ops) :
    ∀ ch ∈ name ++ ' ' :: joinFields fields, ch ≠ ';' := by
  rintro ch hch rfl
  simp only [List.mem_append, List.mem_cons] at hch
  rcases hch with hch | hch | hch
  · simpa using hname.2 _ hch
  · simp at hch
  · rcases mem_joinFields hch with h | h | ⟨f, hf, h⟩
    · simp at h
    · simp at h
    · simpa using (plainField_of_forall₂ hfields f hf).2 _ h

/-- What text stands for that reads as a mnemonic and operands once its comment is dropped. -/
theorem assembleLine_of_dropComment (hname : PlainName name) (hfields : List.Forall₂ FieldReads fields ops)
    {text : List Char} (htext : dropComment text = name ++ ' ' :: joinFields fields) :
    assembleLine (String.ofList text) =
      ((assembleCommand (String.ofList (name.map Char.toLower)) ops).map fun i => [i]).or
        ((readPseudo (String.ofList (name.map Char.toLower)) ops).bind expandPseudo) := by
  have hoperands :
      (if joinFields fields = [] then some [] else readOperands (splitCommas (joinFields fields))) = some ops := by
    by_cases hnil : fields = []
    · subst hnil
      cases hfields
      rfl
    · rw [if_neg (joinFields_ne_nil hnil (plainField_of_forall₂ hfields)),
        readOperands_splitCommas_joinFields hfields hnil]
  simp only [assembleLine, String.toList_ofList, htext, trimBlanks_line hname hfields, List.append_eq_nil_iff, hname.1,
    false_and, if_false, takeWhile_line hname, dropWhile_line hname, trimBlanks_afterName hfields, hoperands]
  cases assembleCommand (String.ofList (name.map Char.toLower)) ops <;> rfl

end

/-! ## Mnemonics as text -/

theorem plainName_asmName (i : Instr) : PlainName (asmName i).toList := by
  cases i <;> simp [PlainName, asmName]

/-- A command's mnemonic in any case is one field of a line. -/
theorem plainName_of_toLower {i : Instr} {name : List Char} (h : name.map Char.toLower = (asmName i).toList) :
    PlainName name := by
  obtain ⟨hne, hchars⟩ := plainName_asmName i
  refine ⟨by rintro rfl; exact hne h.symm, fun ch hch hsep => ?_⟩
  have hlower : ch.toLower = ch := by
    have hall : ∀ c ∈ [' ', '\t', ';'], Char.toLower c = c := by simp
    exact hall ch hsep
  exact hchars ch (h ▸ hlower ▸ List.mem_map_of_mem hch) hsep

/-- Settles O57: digits have their value; a command's line falls apart into its mnemonic and operands, with its comment
dropped; and where they are no command's, `assembleCommand` answers none. -/
theorem assemblerReadsItsText : Obligations.AssemblerReadsItsText := by
  refine ⟨fun ds hne hds => ?_, fun i name fields comment hwf hlower hread hchars => ?_,
    fun name fields ops hne hnchars hread hchars hno hpseudo => ?_⟩
  · have hnumber := readNumber_decimal hne hds
    exact ⟨by simp [readOperand, hnumber], readOperand_decimal hne hds, by simp [readOperand, hnumber]⟩
  · have hname := plainName_of_toLower hlower
    have hfields := forall₂_fieldReads hread hchars
    have hsemi := line_ne_semicolon hname hfields
    have hi : assembleCommand (String.ofList (name.map Char.toLower)) (asmOperands i) = some i := by
      rw [hlower, String.ofList_toList, assembleCommand_asmName i hwf]
    constructor
    · rw [assembleLine_of_dropComment hname hfields (dropComment_eq_self _ hsemi), hi]
      rfl
    · rw [assembleLine_of_dropComment hname hfields (dropComment_append _ comment hsemi), hi]
      rfl
  · have hname : PlainName name := ⟨hne, hnchars⟩
    have hfields := forall₂_fieldReads hread hchars
    have hnone : assembleCommand (String.ofList (name.map Char.toLower)) ops = none := by
      refine Option.eq_none_iff_forall_ne_some.2 fun i hi => ?_
      obtain ⟨hwf, hm, hops⟩ := eq_asmName_of_assembleCommand hi
      exact hno i hwf ⟨hm, hops⟩
    rw [assembleLine_of_dropComment hname hfields
      (dropComment_eq_self _ (line_ne_semicolon hname hfields)), hnone, hpseudo]
    rfl

end Sys2Proof.Machine
end

section
/-! The limb primitives (40_limb_primitives.md R100 to R104): one limb step loses nothing, and the commands are such
steps. -/

namespace Sys2Proof.Machine

/-! ## One limb step loses nothing (R100 to R103) -/

/-- A limb step together with its carry or borrow is exact: the limb and `e` times the carry at weight 2^64 are
`a + e * (b + carryIn)`, with `e` = 1 for a sum and −1 for a difference (R100, R101). -/
def ExactLimbStep (e : Int) (f : Limb → Limb → Bool → Limb × Bool) : Prop :=
  ∀ (a b : Limb) (cin : Bool),
    ((f a b cin).1.toNat : Int) + e * ((f a b cin).2.toNat * 2 ^ 64) = a.toNat + e * (b.toNat + cin.toNat)

theorem toNat_decide (p : Prop) [Decidable p] : (decide p).toNat = if p then 1 else 0 := by
  by_cases h : p <;> simp [h]

theorem exactLimbStep_addLimbs : ExactLimbStep 1 addLimbs := by
  intro a b cin
  have hcin := cin.toNat_le
  simp only [addLimbs, carryOut, flagVal_eq_toNat, BitVec.toNat_ofNat, toNat_decide]
  split <;> omega

theorem exactLimbStep_subLimbs : ExactLimbStep (-1) subLimbs := by
  intro a b cin
  have hcin := cin.toNat_le
  simp only [subLimbs, borrowOut, flagVal_eq_toNat, BitVec.toNat_ofInt, toNat_decide]
  split <;> omega

/-- The bound of R103: a product of limbs has room for two more limbs in 128 bits. -/
theorem mul_add_add_lt_of_limbs {a b acc cin : Nat} (ha : a < 2 ^ 64) (hb : b < 2 ^ 64) (hacc : acc < 2 ^ 64)
    (hcin : cin < 2 ^ 64) : a * b + acc + cin < 2 ^ 128 := by
  have hprod : a * b ≤ (2 ^ 64 - 1) * (2 ^ 64 - 1) := Nat.mul_le_mul (by omega) (by omega)
  omega

theorem zext128_toNat_of_lt {n : Nat} (h : n < 2 ^ 128) : (zext128 n).toNat = n := by
  simp only [zext128, BitVec.toNat_setWidth, BitVec.toNat_ofNat]
  omega

theorem limbOperand_lt (s : State) (r : Reg) (j : Nat) : s.limbOperand r j < 2 ^ 64 := (limb (s.reg r) j).isLt

/-! ## The four primitives (R104) -/

theorem limb_zero_toNat (w : Word) : (limb w 0).toNat = w.toNat % 2 ^ 64 := by
  rw [limb_toNat, Nat.mul_zero, Nat.pow_zero, Nat.div_one]

/-- The state after a limb step on the limbs 0 of two registers, with C as its carry (R100, R101). -/
def State.limbStep (f : Limb → Limb → Bool → Limb × Bool) (rd rs1 rs2 : Reg) (s : State) : State :=
  let r := f (limb (s.reg rs1) 0) (limb (s.reg rs2) 0) s.c
  ((s.setReg rd (r.1.setWidth 256)).setC r.2).complete

theorem exec_adc64_eq_limbStep (rd rs1 rs2 : Reg) (s : State) :
    exec (.adc64 rd rs1 rs2) s = .next (s.limbStep addLimbs rd rs1 rs2) := rfl

theorem exec_sbb64_eq_limbStep (rd rs1 rs2 : Reg) (s : State) :
    exec (.sbb64 rd rs1 rs2) s = .next (s.limbStep subLimbs rd rs1 rs2) := rfl

theorem limbStep_frame (f : Limb → Limb → Bool → Limb × Bool) (rd rs1 rs2 : Reg) (s : State) :
    Completed s (s.limbStep f rd rs1 rs2) ∧ SameRegsBut rd s (s.limbStep f rd rs1 rs2) ∧
      (s.limbStep f rd rs1 rs2).v = s.v := by
  refine ⟨by simp [State.limbStep, Completed], fun q hq => ?_, rfl⟩
  simp [State.limbStep, reg_setReg_ne s _ hq]

/-- The register written is zero-extended, and with C at weight 2^64 it is the exact sum or difference. -/
theorem limbStep_exact {e : Int} {f : Limb → Limb → Bool → Limb × Bool} (hf : ExactLimbStep e f) (rd rs1 rs2 : Reg)
    (s : State) :
    ((s.limbStep f rd rs1 rs2).reg rd).toNat < 2 ^ 64 ∧
      (((s.limbStep f rd rs1 rs2).reg rd).toNat : Int) + e * ((s.limbStep f rd rs1 rs2).c.toNat * 2 ^ 64) =
        ((s.reg rs1).toNat % 2 ^ 64 : Nat) + e * (((s.reg rs2).toNat % 2 ^ 64 : Nat) + s.c.toNat) := by
  have hexact := hf (limb (s.reg rs1) 0) (limb (s.reg rs2) 0) s.c
  have hwidth (l : Limb) : (l.setWidth 256).toNat = l.toNat := BitVec.toNat_setWidth_of_le (by omega)
  simp only [State.limbStep, reg_complete, reg_setC, reg_setReg_self, complete_c, setC_c, hwidth, ← limb_zero_toNat]
  exact ⟨BitVec.isLt _, hexact⟩

theorem exec_mulw64_wroteOnly (rd rs1 rs2 : Reg) (s : State) :
    ∃ t, exec (.mulw64 rd rs1 rs2) s = .next t ∧
      WroteOnly rd (zext128 (s.limbOperand rs1 0 * s.limbOperand rs2 0)) s t :=
  ⟨_, rfl, wroteOnly_setReg_complete s rd _⟩

theorem exec_madc64_wroteOnly (rd rs1 rs2 rs3 : Reg) (s : State) :
    ∃ t, exec (.madc64 rd rs1 rs2 rs3) s = .next t ∧
      WroteOnly rd (zext128 (s.limbOperand rs1 0 * s.limbOperand rs2 0 + s.limbOperand rs3 0 + s.limbOperand rs3 1))
        s t :=
  ⟨_, rfl, wroteOnly_setReg_complete s rd _⟩

/-- Settles O26: ADC64 and SBB64 are exact limb steps, and the results of MULW64 and MADC64 fit in 128 bits. -/
theorem limbPrimitivesAreExact : Obligations.LimbPrimitivesAreExact := by
  intro rd rs1 rs2 rs3 s
  have hbound (acc cin : Nat) (hacc : acc < 2 ^ 64) (hcin : cin < 2 ^ 64) :=
    mul_add_add_lt_of_limbs (limbOperand_lt s rs1 0) (limbOperand_lt s rs2 0) hacc hcin
  refine ⟨?_, ?_, ?_, ?_⟩
  · obtain ⟨hdone, hregs, hv⟩ := limbStep_frame addLimbs rd rs1 rs2 s
    obtain ⟨hlt, hexact⟩ := limbStep_exact exactLimbStep_addLimbs rd rs1 rs2 s
    exact ⟨_, exec_adc64_eq_limbStep rd rs1 rs2 s, hdone, hregs, hv, hlt, by omega⟩
  · obtain ⟨hdone, hregs, hv⟩ := limbStep_frame subLimbs rd rs1 rs2 s
    obtain ⟨hlt, hexact⟩ := limbStep_exact exactLimbStep_subLimbs rd rs1 rs2 s
    exact ⟨_, exec_sbb64_eq_limbStep rd rs1 rs2 s, hdone, hregs, hv, hlt, by omega⟩
  · obtain ⟨t, hexec, hdone, hrd, hregs, hflags⟩ := exec_mulw64_wroteOnly rd rs1 rs2 s
    refine ⟨t, hexec, hdone, hregs, hflags, ?_⟩
    have hprod : s.limbOperand rs1 0 * s.limbOperand rs2 0 < 2 ^ 128 := hbound 0 0 (by decide) (by decide)
    rw [hrd, zext128_toNat_of_lt hprod, limbOperand_zero, limbOperand_zero]
  · obtain ⟨t, hexec, hdone, hrd, hregs, hflags⟩ := exec_madc64_wroteOnly rd rs1 rs2 rs3 s
    refine ⟨t, hexec, hdone, hregs, hflags, ?_⟩
    rw [hrd, zext128_toNat_of_lt (hbound _ _ (limbOperand_lt s rs3 0) (limbOperand_lt s rs3 1)), limbOperand_zero,
      limbOperand_zero, limbOperand_zero, limbOperand_one]

end Sys2Proof.Machine
end

section
/-! The 4-limb chains (42_add_sub.md R121, R122, R125): a word is its limbs, an exact limb step ripples to an exact chain,
and the closed forms of ADD, SUB and CMP follow. -/

namespace Sys2Proof.Machine

/-! ## Words and lists of limbs (00_scope.md R8) -/

theorem limbsValue_limbsOf (w : Word) : limbsValue (limbsOf w) = w.toNat := by
  simp only [limbsOf, limbsValue, limb_toNat]
  omega

theorem limbsOf_lt (w : Word) : ∀ l ∈ limbsOf w, l < 2 ^ 64 := by
  simp only [limbsOf, List.forall_mem_cons]
  exact ⟨(limb w 0).isLt, (limb w 1).isLt, (limb w 2).isLt, (limb w 3).isLt, by simp⟩

theorem append_toNat {m n : Nat} (x : BitVec m) (y : BitVec n) : (x ++ y).toNat = x.toNat * 2 ^ n + y.toNat := by
  rw [BitVec.toNat_append, ← Nat.shiftLeft_add_eq_or_of_lt y.isLt, Nat.shiftLeft_eq]

theorem ofLimbs_toNat (l0 l1 l2 l3 : Limb) :
    (ofLimbs l0 l1 l2 l3).toNat = limbsValue [l0.toNat, l1.toNat, l2.toNat, l3.toNat] := by
  simp only [ofLimbs, append_toNat, limbsValue]
  omega

/-- The low `n` limbs are the value modulo 2^(64n). -/
theorem limbsValue_take {ls : List Nat} (h : ∀ l ∈ ls, l < 2 ^ 64) (n : Nat) :
    limbsValue (ls.take n) = limbsValue ls % 2 ^ (64 * n) := by
  induction ls generalizing n with
  | nil => simp [limbsValue]
  | cons l ls ih =>
    obtain ⟨hl, hls⟩ := List.forall_mem_cons.1 h
    cases n with
    | zero => simp [limbsValue, Nat.mod_one]
    | succ n =>
      have hlow : (l + 2 ^ 64 * limbsValue ls) % 2 ^ 64 = l := by omega
      have hhigh : (l + 2 ^ 64 * limbsValue ls) / 2 ^ 64 = limbsValue ls := by omega
      rw [List.take_succ_cons, limbsValue, limbsValue, ih hls, Nat.mul_succ, Nat.add_comm (64 * n), Nat.pow_add,
        Nat.mod_mul, hlow, hhigh]

/-! ## The carry chain and the borrow chain (R121, R122, R125) -/

/-- The ripple of an exact limb step is exact on words: the carries between the limbs cancel. -/
theorem limbChain_exact {e : Int} {f : Limb → Limb → Bool → Limb × Bool} (hf : ExactLimbStep e f) (a b : Word) :
    ((limbChain f a b).1.toNat : Int) + e * ((limbChain f a b).2.toNat * 2 ^ 256) = a.toNat + e * b.toNat := by
  rw [← limbsValue_limbsOf a, ← limbsValue_limbsOf b, limbChain, ofLimbs_toNat]
  simp only [limbsOf, limbsValue]
  have h0 := hf (limb a 0) (limb b 0) false
  generalize f (limb a 0) (limb b 0) false = r0 at *
  have h1 := hf (limb a 1) (limb b 1) r0.2
  generalize f (limb a 1) (limb b 1) r0.2 = r1 at *
  have h2 := hf (limb a 2) (limb b 2) r1.2
  generalize f (limb a 2) (limb b 2) r1.2 = r2 at *
  have h3 := hf (limb a 3) (limb b 3) r2.2
  rw [Bool.toNat_false] at h0
  push_cast at *
  linear_combination h0 + 2 ^ 64 * h1 + 2 ^ 128 * h2 + 2 ^ 192 * h3

theorem eq_decide_iff (c : Bool) (p : Prop) [Decidable p] : c = decide p ↔ (c.toNat = 1 ↔ p) := by
  rw [Bool.toNat_eq_one, Bool.eq_iff_iff, decide_eq_true_iff]

/-- Settles O44: the chain's sum and last carry are the two digits of `a + b` to the base 2^256. -/
theorem carryChainIsAdd : Obligations.CarryChainIsAdd := by
  intro a b
  have hexact := limbChain_exact exactLimbStep_addLimbs a b
  rw [← addChain] at hexact
  have hlt := (addChain a b).1.isLt
  have hbit := (addChain a b).2.toNat_le
  refine Prod.ext (BitVec.eq_of_toNat_eq ?_) ?_
  · rw [addWord, bits256, BitVec.toNat_ofNat, uval, uval]
    omega
  · rw [eq_decide_iff]
    omega

theorem subChain_eq (a b : Word) : subChain a b = (subWord a b, decide (a.toNat < b.toNat)) := by
  have hexact := limbChain_exact exactLimbStep_subLimbs a b
  rw [← subChain] at hexact
  have hlt := (subChain a b).1.isLt
  have hbit := (subChain a b).2.toNat_le
  refine Prod.ext (BitVec.eq_of_toNat_eq ?_) ?_
  · rw [subWord, bits256Int, BitVec.toNat_ofInt, uval, uval]
    omega
  · rw [eq_decide_iff]
    omega

theorem subWord_eq_zero_iff (a b : Word) : subWord a b = 0 ↔ a.toNat = b.toNat := by
  have ha := a.isLt
  have hb := b.isLt
  rw [← BitVec.toNat_inj, subWord, bits256Int, BitVec.toNat_ofInt, uval, uval, BitVec.ofNat_eq_ofNat, BitVec.toNat_zero]
  omega

/-- The three outcomes of the borrow chain are those of the unsigned comparison. -/
theorem compareChain_eq_compareWord {a b : Word} (h : sign a = sign b) : compareChain a b = compareWord a b := by
  have hneg : ((a.toNat : Int) - b.toNat < 0) ↔ a.toNat < b.toNat := by omega
  have hzero : ((a.toNat : Int) - b.toNat = 0) ↔ a.toNat = b.toNat := by omega
  simp only [compareChain, subChain_eq, subWord_eq_zero_iff, compareWord, h, uval, hneg, hzero, decide_eq_true_eq,
    ne_eq, not_true_eq_false, if_false]
  rcases Nat.lt_trichotomy a.toNat b.toNat with hlt | heq | hgt
  · rw [if_pos hlt, if_neg hlt.ne, if_pos hlt]
  · rw [if_neg heq.not_lt, if_pos heq, if_pos heq]
  · rw [if_neg hgt.not_gt, if_neg hgt.ne', if_neg hgt.ne', if_neg hgt.not_gt]

/-- Settles O45: the chain's difference and borrow, and the comparison read from them. -/
theorem borrowChainIsSubAndCmp : Obligations.BorrowChainIsSubAndCmp :=
  ⟨subChain_eq, fun _ _ h => compareChain_eq_compareWord h⟩

end Sys2Proof.Machine
end

section
/-! The 4x4 multiply grid (43_multiply.md R130): each row, and so the whole grid, is a list of limbs and has the value of
the product. -/

namespace Sys2Proof.Machine

/-! ## One step of the grid (R103) -/

/-- `mulAddWithCarry` splits `a * b + acc + carryIn` into two limbs (R103). -/
theorem mulAddLimbs_exact (acc a b cin : Nat) :
    (mulAddLimbs acc a b cin).2 + 2 ^ 64 * (mulAddLimbs acc a b cin).1 = a * b + acc + cin :=
  Nat.mod_add_div _ _

theorem mulAddLimbs_lo_lt (acc a b cin : Nat) : (mulAddLimbs acc a b cin).2 < 2 ^ 64 := Nat.mod_lt _ (by decide)

theorem mulAddLimbs_hi_lt {acc a b cin : Nat} (hacc : acc < 2 ^ 64) (ha : a < 2 ^ 64) (hb : b < 2 ^ 64)
    (hcin : cin < 2 ^ 64) : (mulAddLimbs acc a b cin).1 < 2 ^ 64 :=
  Nat.div_lt_of_lt_mul (mul_add_add_lt_of_limbs ha hb hacc hcin)

/-! ## Lists of limbs -/

/-- A list of `n` limbs: every element is below 2^64. -/
def IsLimbs (n : Nat) (ls : List Nat) : Prop := ls.length = n ∧ ∀ l ∈ ls, l < 2 ^ 64

theorem isLimbs_zero_iff (ls : List Nat) : IsLimbs 0 ls ↔ ls = [] := by
  constructor
  · rintro ⟨hlen, -⟩
    exact List.length_eq_zero_iff.1 hlen
  · rintro rfl
    simp [IsLimbs]

theorem isLimbs_cons_iff (n l : Nat) (ls : List Nat) : IsLimbs (n + 1) (l :: ls) ↔ l < 2 ^ 64 ∧ IsLimbs n ls := by
  rw [IsLimbs, IsLimbs, List.length_cons, Nat.succ_inj, List.forall_mem_cons, and_left_comm]

theorem exists_cons_of_isLimbs_succ {n : Nat} {ls : List Nat} (h : IsLimbs (n + 1) ls) :
    ∃ lo rest, ls = lo :: rest ∧ lo < 2 ^ 64 ∧ IsLimbs n rest := by
  cases ls with
  | nil => exact absurd h.1 (by simp)
  | cons lo rest => exact ⟨lo, rest, rfl, (isLimbs_cons_iff n lo rest).1 h⟩

theorem isLimbs_limbsOf (w : Word) : IsLimbs 4 (limbsOf w) := ⟨rfl, limbsOf_lt w⟩

/-! ## Rows (R130) -/

theorem gridRow_nil (b c : Nat) (as : List Nat) : gridRow b c [] as = [c] := by
  simp [gridRow]

theorem gridRow_cons (b c t a : Nat) (ts as : List Nat) :
    gridRow b c (t :: ts) (a :: as) = (mulAddLimbs t a b c).2 :: gridRow b (mulAddLimbs t a b c).1 ts as := rfl

/-- A row of the grid has one limb more than its operands. -/
theorem gridRow_isLimbs {n b c : Nat} {ts as : List Nat} (hts : IsLimbs n ts) (has : IsLimbs n as) (hb : b < 2 ^ 64)
    (hc : c < 2 ^ 64) : IsLimbs (n + 1) (gridRow b c ts as) := by
  induction n generalizing c ts as with
  | zero =>
    obtain rfl := (isLimbs_zero_iff ts).1 hts
    rw [gridRow_nil, isLimbs_cons_iff]
    exact ⟨hc, hts⟩
  | succ n ih =>
    obtain ⟨t, ts, rfl, ht, hts⟩ := exists_cons_of_isLimbs_succ hts
    obtain ⟨a, as, rfl, ha, has⟩ := exists_cons_of_isLimbs_succ has
    rw [gridRow_cons, isLimbs_cons_iff]
    exact ⟨mulAddLimbs_lo_lt t a b c, ih hts has (mulAddLimbs_hi_lt ht ha hb hc)⟩

/-- A row adds `b` times the multiplicand, and the carry it is given, to the accumulator. -/
theorem limbsValue_gridRow (b c : Nat) {ts as : List Nat} (hlen : ts.length = as.length) :
    limbsValue (gridRow b c ts as) = limbsValue ts + limbsValue as * b + c := by
  induction ts generalizing c as with
  | nil =>
    obtain rfl := List.length_eq_zero_iff.1 hlen.symm
    simp [gridRow_nil, limbsValue]
  | cons t ts ih =>
    cases as with
    | nil => simp at hlen
    | cons a as =>
      have hstep := mulAddLimbs_exact t a b c
      simp only [gridRow_cons, limbsValue, ih _ (Nat.succ.inj hlen)]
      linear_combination hstep

theorem gridRows_cons {as t rest : List Nat} {b lo : Nat} (bs : List Nat) (h : gridRow b 0 t as = lo :: rest) :
    gridRows as (b :: bs) t = lo :: gridRows as bs rest := by
  rw [gridRows, h]

/-! ## The whole grid (R130) -/

section
variable {n m : Nat} {as bs t : List Nat}

/-- Every row finishes one limb and leaves an accumulator of `n` limbs. -/
theorem gridRows_isLimbs (has : IsLimbs n as) (hbs : IsLimbs m bs) (ht : IsLimbs n t) :
    IsLimbs (n + m) (gridRows as bs t) := by
  induction m generalizing bs t with
  | zero =>
    obtain rfl := (isLimbs_zero_iff bs).1 hbs
    exact ht
  | succ m ih =>
    obtain ⟨b, bs, rfl, hb, hbs⟩ := exists_cons_of_isLimbs_succ hbs
    obtain ⟨lo, rest, hrow, hlo, hrest⟩ := exists_cons_of_isLimbs_succ (gridRow_isLimbs (c := 0) ht has hb (by decide))
    rw [gridRows_cons bs hrow, ← Nat.add_assoc, isLimbs_cons_iff]
    exact ⟨hlo, ih hbs hrest⟩

/-- The rows add the product of the operands to the accumulator. -/
theorem limbsValue_gridRows (has : IsLimbs n as) (hbs : IsLimbs m bs) (ht : IsLimbs n t) :
    limbsValue (gridRows as bs t) = limbsValue t + limbsValue as * limbsValue bs := by
  induction m generalizing bs t with
  | zero =>
    obtain rfl := (isLimbs_zero_iff bs).1 hbs
    simp [gridRows, limbsValue]
  | succ m ih =>
    obtain ⟨b, bs, rfl, hb, hbs⟩ := exists_cons_of_isLimbs_succ hbs
    obtain ⟨lo, rest, hrow, -, hrest⟩ := exists_cons_of_isLimbs_succ (gridRow_isLimbs (c := 0) ht has hb (by decide))
    have hvalue := limbsValue_gridRow b 0 (ht.1.trans has.1.symm)
    rw [hrow, limbsValue] at hvalue
    rw [gridRows_cons bs hrow, limbsValue, limbsValue, ih hbs hrest]
    linear_combination hvalue

end

/-- Settles O46: the grid is the product of the operands' limbs, and its low half that product modulo 2^256. -/
theorem multiplyGridIsProduct : Obligations.MultiplyGridIsProduct := by
  intro a b
  have hzero : IsLimbs 4 [0, 0, 0, 0] := by simp [IsLimbs]
  obtain ⟨hlen, hlt⟩ : IsLimbs 8 (mulGrid a b) := gridRows_isLimbs (isLimbs_limbsOf a) (isLimbs_limbsOf b) hzero
  have hvalue : limbsValue (mulGrid a b) = a.toNat * b.toNat := by
    rw [mulGrid, limbsValue_gridRows (isLimbs_limbsOf a) (isLimbs_limbsOf b) hzero, limbsValue_limbsOf,
      limbsValue_limbsOf]
    simp [limbsValue]
  refine ⟨hlen, hlt, hvalue, ?_⟩
  rw [limbsValue_take hlt, hvalue, mulWord, bits256, BitVec.toNat_ofNat, uval, uval]

end Sys2Proof.Machine
end

section
/-! The register load and flag commands (41_register_load.md R110 to R117): each load is one register write, and a legal
packet of opcode 0 is the encoding of NOP. -/

namespace Sys2Proof.Machine

/-! ## NOP (R110) -/

theorem exec_nop_completed (s : State) :
    ∃ t, exec .nop s = .next t ∧ Completed s t ∧ (∀ r, t.reg r = s.reg r) ∧ SameFlags s t :=
  ⟨s.complete, rfl, by simp [Completed], reg_complete s, complete_c s, complete_v s⟩

/-- R65 gives the opcode 0x00 to NOP alone. -/
theorem opcode_eq_zero_iff (i : Instr) : i.opcode = 0 ↔ i = .nop := by
  cases i <;> simp [Instr.opcode]

theorem opcode_of_decode {p : Packet} {i : Instr} (h : decode p = .command i) : i.opcode = p.hdr.toNat % 2 ^ 8 := by
  obtain ⟨hselect, -⟩ := (decode_eq_command_iff p i).1 h
  obtain ⟨hopc, -⟩ := commandOf_eq_some hselect
  exact hopc.trans (hdrOpc_toNat p.hdr)

theorem encode_nop : encode .nop = ⟨0, 0⟩ := by decide

/-- Settles O27: a legal packet of opcode 0 is NOP's, and a packet is the encoding of the command it decodes to. -/
theorem nopHasNoEffect : Obligations.NopHasNoEffect := by
  refine ⟨exec_nop_completed, fun p i hopc => ⟨fun hdecode => ?_, ?_⟩⟩
  · obtain rfl : i = .nop := (opcode_eq_zero_iff i).1 ((opcode_of_decode hdecode).trans hopc)
    obtain ⟨-, hencode⟩ := encodeOfDecode p .nop hdecode
    exact ⟨hencode.symm.trans encode_nop, rfl⟩
  · rintro ⟨rfl, rfl⟩
    exact encode_nop ▸ decodeOfEncode .nop rfl

/-! ## MOV, CLR, ONE, ALL1 (R111 to R114) -/

theorem allOnes_eq_ofInt : BitVec.allOnes 256 = BitVec.ofInt 256 (-1) := by decide

/-- Settles O28: each of the four is one register write. -/
theorem registerLoads : Obligations.RegisterLoads := by
  intro rd rs1 s
  refine ⟨⟨_, rfl, ?_⟩, ⟨_, rfl, ?_⟩, exec_one_wroteOnly rd s, ⟨_, rfl, ?_⟩⟩
  · exact wroteOnly_setReg_complete s rd (s.reg rs1)
  · exact wroteOnly_setReg_complete s rd 0
  · exact allOnes_eq_ofInt ▸ wroteOnly_setReg_complete s rd (BitVec.allOnes 256)

/-! ## LDS64, LDU64 (R115, R116) -/

/-- 256 bits hold every value of 64 bits, read as signed or as unsigned. -/
theorem toInt_ofInt_of_limb_range {x : Int} (hlo : -2 ^ 63 ≤ x) (hhi : x < 2 ^ 64) : (BitVec.ofInt 256 x).toInt = x :=
  BitVec.toInt_ofInt_eq_self (by decide) (by omega) (by omega)

theorem toInt_ofInt_toInt_imm (imm : BitVec 64) : (BitVec.ofInt 256 imm.toInt).toInt = imm.toInt :=
  toInt_ofInt_of_limb_range imm.le_toInt (imm.toInt_lt.trans (by decide))

theorem toInt_ofNat_toNat_imm (imm : BitVec 64) : (BitVec.ofNat 256 imm.toNat).toInt = imm.toNat := by
  rw [← BitVec.ofInt_natCast]
  exact toInt_ofInt_of_limb_range (by omega) (by omega)

theorem WroteOnly.reg_self {rd : Reg} {w : Word} {s t : State} (h : WroteOnly rd w s t) : t.reg rd = w := h.2.1

/-- Sign extension is by definition the pattern of the signed value. -/
theorem exec_lds64_wroteOnly (rd : Reg) (imm : BitVec 64) (s : State) :
    ∃ t, exec (.lds64 rd imm) s = .next t ∧ WroteOnly rd (BitVec.ofInt 256 imm.toInt) s t :=
  ⟨_, rfl, wroteOnly_setReg_complete s rd (imm.signExtend 256)⟩

/-- Settles O29: each load writes the pattern of the immediate's value, and 256 bits hold that value. -/
theorem immediateLoadsKeepTheirValue : Obligations.ImmediateLoadsKeepTheirValue := by
  intro rd imm s
  constructor
  · obtain ⟨t, hexec, hwrote⟩ := exec_lds64_wroteOnly rd imm s
    exact ⟨t, hexec, hwrote, by rw [hwrote.reg_self, toInt_ofInt_toInt_imm]⟩
  · obtain ⟨t, hexec, hwrote⟩ := exec_ldu64_wroteOnly rd imm s
    exact ⟨t, hexec, hwrote, by rw [hwrote.reg_self, toInt_ofNat_toNat_imm]⟩

/-! ## WRFLAGS (R117) -/

/-- Settles O30: the command sets C, then V, and completes; neither setter touches the other flag or a register. -/
theorem wrflagsWritesBothFlags : Obligations.WrflagsWritesBothFlags := by
  intro imm s
  refine ⟨((s.setC (imm.getLsbD 0)).setV (imm.getLsbD 1)).complete, rfl, by simp [Completed], fun r => ?_, ?_, ?_⟩
  · rw [reg_complete, reg_setV, reg_setC]
  · rw [complete_c, setV_c, setC_c]
  · rw [complete_v, setV_v]

end Sys2Proof.Machine
end

section
/-! Negation, addition, subtraction and compare (42_add_sub.md R120 to R126): the wrapped results are the patterns of the
signed results, and the overflow rules by signs are true signed overflow. -/

namespace Sys2Proof.Machine

/-! ## NEG, ADD and SUB (R120 to R122) -/

/-- The wrapping sum is that of the signed values (R121). -/
theorem addWord_eq_ofInt (a b : Word) : addWord a b = BitVec.ofInt 256 (a.toInt + b.toInt) := by
  obtain ⟨k, ha⟩ := exists_toInt_eq a
  obtain ⟨l, hb⟩ := exists_toInt_eq b
  rw [addWord, bits256_eq_ofInt]
  exact ofInt_congr ⟨-k - l, by rw [ha, hb, uval, uval]; push_cast; ring⟩

theorem exec_add_wroteOnly (rd rs1 rs2 : Reg) (s : State) :
    ∃ t, exec (.add rd rs1 rs2) s = .next t ∧
      WroteOnly rd (BitVec.ofInt 256 ((s.reg rs1).toInt + (s.reg rs2).toInt)) s t := by
  rw [← addWord_eq_ofInt]
  exact ⟨_, rfl, wroteOnly_setReg_complete s rd _⟩

theorem exec_neg_wroteOnly (rd rs1 : Reg) (s : State) :
    ∃ t, exec (.neg rd rs1) s = .next t ∧ WroteOnly rd (BitVec.ofInt 256 (-(s.reg rs1).toInt)) s t := by
  rw [← negate_eq_ofInt]
  exact ⟨_, rfl, wroteOnly_setReg_complete s rd _⟩

/-- Settles O31: each of the three is one register write, of the pattern of the signed result. -/
theorem negAddSubAreSigned : Obligations.NegAddSubAreSigned := fun rd rs1 rs2 s =>
  ⟨exec_add_wroteOnly rd rs1 rs2 s, exec_sub_wroteOnly rd rs1 rs2 s, exec_neg_wroteOnly rd rs1 s⟩

/-! ## Signs (R10) -/

/-- What `sign` answers, by the signed value. -/
theorem sign_cases (w : Word) :
    (w.toInt < 0 ∧ sign w = -1) ∨ (w.toInt = 0 ∧ sign w = 0) ∨ (0 < w.toInt ∧ sign w = 1) := by
  rw [sign_eq_sign]
  rcases Int.lt_trichotomy w.toInt 0 with hneg | hzero | hpos
  · exact .inl ⟨hneg, Int.sign_eq_neg_one_of_neg hneg⟩
  · exact .inr (.inl ⟨hzero, Int.sign_eq_zero_iff_zero.2 hzero⟩)
  · exact .inr (.inr ⟨hpos, Int.sign_eq_one_of_pos hpos⟩)

theorem sign_eq_sign_iff (a b : Word) :
    sign a = sign b ↔ (a.toInt < 0 ↔ b.toInt < 0) ∧ (0 < a.toInt ↔ 0 < b.toInt) := by
  have ha := sign_cases a
  have hb := sign_cases b
  omega

theorem toInt_lt_of_sign_lt {a b : Word} (h : sign a < sign b) : a.toInt < b.toInt := by
  have ha := sign_cases a
  have hb := sign_cases b
  omega

/-! ## ADDO and SUBO (R123, R124) -/

/-- A value that needs one bit more than 256 is kept or wraps by 2^256 into the signed range. -/
theorem toInt_ofInt_cases {x : Int} (hlo : -2 ^ 256 ≤ x) (hhi : x < 2 ^ 256) :
    (x < -2 ^ 255 ∧ (BitVec.ofInt 256 x).toInt = x + 2 ^ 256) ∨
      (-2 ^ 255 ≤ x ∧ x < 2 ^ 255 ∧ (BitVec.ofInt 256 x).toInt = x) ∨
      (2 ^ 255 ≤ x ∧ (BitVec.ofInt 256 x).toInt = x - 2 ^ 256) := by
  rw [BitVec.toInt_ofInt, Int.bmod_def]
  split <;> omega

theorem uval_eq_zero_iff (w : Word) : uval w = 0 ↔ w.toInt = 0 := by
  have hw := BitVec.toInt_eq_toNat_cond w
  have hlt := w.isLt
  rw [uval]
  split at hw <;> omega

/-- R123's rule by signs: a sum of operands of equal sign overflows exactly when it wraps to another sign. -/
theorem addOverflow_addWord_iff (a b : Word) :
    addOverflow a b (addWord a b) = true ↔ a.toInt + b.toInt < -2 ^ 255 ∨ 2 ^ 255 ≤ a.toInt + b.toInt := by
  have ha := a.le_toInt
  have ha' := a.toInt_lt
  have hb := b.le_toInt
  have hb' := b.toInt_lt
  rw [addOverflow, decide_eq_true_iff, ne_eq, sign_eq_sign_iff, sign_eq_sign_iff, addWord_eq_ofInt]
  rcases toInt_ofInt_cases (x := a.toInt + b.toInt) (by omega) (by omega) with hlow | hkept | hhigh <;> omega

/-- R124's rule by signs: a difference overflows exactly when the operands' signs differ and it wraps away from the
sign of the minuend; 0 has no sign to keep, and only `0 − MinI256` overflows. -/
theorem subOverflow_subWord_iff (a b : Word) :
    subOverflow a b (subWord a b) = true ↔ a.toInt - b.toInt < -2 ^ 255 ∨ 2 ^ 255 ≤ a.toInt - b.toInt := by
  have ha := a.le_toInt
  have ha' := a.toInt_lt
  have hb := b.le_toInt
  have hb' := b.toInt_lt
  rw [subOverflow, decide_eq_true_iff, ne_eq, ne_eq, ne_eq, uval_eq_zero_iff, eq_minI256_iff, sign_eq_sign_iff,
    sign_eq_sign_iff, subWord_eq_ofInt]
  rcases toInt_ofInt_cases (x := a.toInt - b.toInt) (by omega) (by omega) with hlow | hkept | hhigh <;> omega

/-- A command that writes `w` to `x[rd]` and an overflow to V changes no other register, not C, and completes. -/
theorem exec_setReg_setV {i : Instr} {rd : Reg} {w : Word} {overflow : Bool} {p : Prop} {s : State}
    (hexec : exec i s = .next ((s.setReg rd w).setV overflow).complete) (hoverflow : overflow = true ↔ p) :
    ∃ t, exec i s = .next t ∧ Completed s t ∧ SameRegsBut rd s t ∧ t.c = s.c ∧ t.reg rd = w ∧ (t.v = true ↔ p) := by
  refine ⟨_, hexec, by simp [Completed], fun q hq => ?_, rfl, ?_, hoverflow⟩
  · rw [reg_complete, reg_setV, reg_setReg_ne s w hq]
  · rw [reg_complete, reg_setV, reg_setReg_self]

/-- Settles O32: ADDO writes ADD's sum, and the rule by signs for V is true signed overflow. -/
theorem addoFlagsSignedOverflow : Obligations.AddoFlagsSignedOverflow := by
  intro rd rs1 rs2 s
  rw [← addWord_eq_ofInt]
  exact exec_setReg_setV rfl (addOverflow_addWord_iff _ _)

/-- Settles O33: SUBO writes SUB's difference, and the rule by signs for V is true signed overflow. -/
theorem suboFlagsSignedOverflow : Obligations.SuboFlagsSignedOverflow := by
  intro rd rs1 rs2 s
  rw [← subWord_eq_ofInt]
  exact exec_setReg_setV rfl (subOverflow_subWord_iff _ _)

/-! ## CMP (R125) -/

/-- For operands of equal sign the difference of the patterns is the signed difference. -/
theorem uval_sub_eq_toInt_sub {a b : Word} (h : sign a = sign b) : (uval a : Int) - uval b = a.toInt - b.toInt := by
  obtain ⟨hneg, -⟩ := (sign_eq_sign_iff a b).1 h
  have ha := BitVec.toInt_eq_toNat_cond a
  have hb := BitVec.toInt_eq_toNat_cond b
  have hlt := a.isLt
  have hlt' := b.isLt
  rw [uval, uval]
  split at ha <;> split at hb <;> omega

/-- The sign, as R125 tells the three outcomes of a difference apart. -/
theorem int_sign_eq_ite (d : Int) : d.sign = if d = 0 then 0 else if d < 0 then -1 else 1 := by
  split_ifs with hzero hneg
  · exact Int.sign_eq_zero_iff_zero.2 hzero
  · exact Int.sign_eq_neg_one_of_neg hneg
  · exact Int.sign_eq_one_of_pos (by omega)

/-- The three-way answer is the sign of the signed difference: of other signs the greater sign has the greater value. -/
theorem compareWord_eq_sign (a b : Word) : compareWord a b = (a.toInt - b.toInt).sign := by
  rw [compareWord]
  split_ifs with hne hgt
  · have hlt := toInt_lt_of_sign_lt hgt
    rw [Int.sign_eq_one_of_pos (by omega)]
  · have hlt := toInt_lt_of_sign_lt (lt_of_le_of_ne (not_lt.1 hgt) hne)
    rw [Int.sign_eq_neg_one_of_neg (by omega)]
  · rw [uval_sub_eq_toInt_sub (not_not.1 hne)]
    exact (int_sign_eq_ite _).symm

theorem exec_cmp_wroteOnly (rd rs1 rs2 : Reg) (s : State) :
    ∃ t, exec (.cmp rd rs1 rs2) s = .next t ∧
      WroteOnly rd (BitVec.ofInt 256 ((s.reg rs1).toInt - (s.reg rs2).toInt).sign) s t := by
  rw [← compareWord_eq_sign]
  exact ⟨_, rfl, wroteOnly_setReg_complete s rd _⟩

/-- Settles O34: CMP is one register write, of the sign of the signed difference. -/
theorem cmpIsTheSignedOrder : Obligations.CmpIsTheSignedOrder := exec_cmp_wroteOnly

end Sys2Proof.Machine
end

section
/-! Multiplication and exponentiation (43_multiply.md R130 to R133): every product is the signed product modulo 2^256,
MULO's V is the magnitude of the true product, and the loop of R132 multiplies up a power. -/

namespace Sys2Proof.Machine

/-! ## MUL (R130) -/

theorem mulWord_ofInt (x y : Int) :
    mulWord (BitVec.ofInt 256 x) (BitVec.ofInt 256 y) = BitVec.ofInt 256 (x * y) := by
  rw [BitVec.ofInt_mul, BitVec.mul_def]
  rfl

/-- The wrapping product is that of the signed values (R133 (a)). -/
theorem mulWord_eq_ofInt (a b : Word) : mulWord a b = BitVec.ofInt 256 (a.toInt * b.toInt) := by
  rw [← mulWord_ofInt, BitVec.ofInt_toInt, BitVec.ofInt_toInt]

/-- Settles O35: MUL is one register write, of the pattern of the signed product. -/
theorem mulIsSigned : Obligations.MulIsSigned := by
  intro rd rs1 rs2 s
  rw [← mulWord_eq_ofInt]
  exact ⟨_, rfl, wroteOnly_setReg_complete s rd _⟩

/-! ## MULO (R131) -/

/-- Reapplying a sign is negation of the value (R10, R131). -/
theorem withSign_ofInt (neg : Bool) (x : Int) :
    withSign neg (BitVec.ofInt 256 x) = BitVec.ofInt 256 (if neg then -x else x) := by
  cases neg
  · rfl
  · rw [withSign, if_pos rfl, if_pos rfl, negate_eq_ofInt, BitVec.ofInt_neg, BitVec.ofInt_toInt, BitVec.ofInt_neg]

/-- A product is the product of the magnitudes with the exclusive or of the signs. -/
theorem mul_eq_ite_natAbs (x y : Int) :
    (if decide (x < 0) != decide (y < 0) then -((x.natAbs * y.natAbs : Nat) : Int) else (x.natAbs * y.natAbs : Nat)) =
      x * y := by
  rcases lt_or_ge x 0 with hx | hx <;> rcases lt_or_ge y 0 with hy | hy <;>
    simp [hx, hy, not_lt.2, abs_of_neg, abs_of_nonneg]

theorem uval_eq_one_iff (w : Word) : uval w = 1 ↔ w.toInt = 1 := by
  have hw := BitVec.toInt_eq_toNat_cond w
  have hlt := w.isLt
  rw [uval]
  split at hw <;> omega

/-- R131's special case, by the signed values. -/
theorem mulSpecial_iff (a b : Word) :
    (a = minI256 ∧ uval b = 1) ∨ (uval a = 1 ∧ b = minI256) ↔
      (a.toInt = -2 ^ 255 ∧ b.toInt = 1) ∨ (a.toInt = 1 ∧ b.toInt = -2 ^ 255) := by
  rw [eq_minI256_iff, eq_minI256_iff, uval_eq_one_iff, uval_eq_one_iff]

/-- R131's test of the high half and of bit 255 is a magnitude of at least 2^255. -/
theorem mulOverflow_iff (p : Nat) : mulOverflow p = true ↔ 2 ^ 255 ≤ p := by
  rw [mulOverflow, Bool.or_eq_true, decide_eq_true_iff]
  constructor
  · rintro (hhigh | hbit)
    · omega
    · exact Nat.ge_two_pow_of_testBit hbit
  · intro hp
    rcases lt_or_ge p (2 ^ 256) with hlt | hge
    · exact .inr (Nat.testBit_of_two_pow_le_and_two_pow_add_one_gt hp hlt)
    · exact .inl hge

/-- MULO's result is MUL's, in the special case and from the magnitudes (R133 (b)). -/
theorem mulChecked_fst (a b : Word) : (mulChecked a b).1 = BitVec.ofInt 256 (a.toInt * b.toInt) := by
  rw [mulChecked]
  split_ifs with hspecial
  · rcases (mulSpecial_iff a b).1 hspecial with ⟨ha, hb⟩ | ⟨ha, hb⟩ <;> rw [ha, hb] <;> decide
  · simp only [isNeg_eq_decide, absu_eq_natAbs, bits256_eq_ofInt, withSign_ofInt, mul_eq_ite_natAbs]

/-- MULO's V is a true product of magnitude at least 2^255, but in the special case (R133 (c)). -/
theorem mulChecked_snd_iff (a b : Word) :
    (mulChecked a b).2 = true ↔
      a.toInt * b.toInt < -2 ^ 255 ∨ 2 ^ 255 ≤ a.toInt * b.toInt ∨
      (a.toInt * b.toInt = -2 ^ 255 ∧ ¬(a.toInt = -2 ^ 255 ∧ b.toInt = 1) ∧ ¬(a.toInt = 1 ∧ b.toInt = -2 ^ 255)) := by
  rw [mulChecked]
  split_ifs with hspecial
  · rcases (mulSpecial_iff a b).1 hspecial with ⟨ha, hb⟩ | ⟨ha, hb⟩ <;> rw [ha, hb] <;> decide
  · rw [mulSpecial_iff, not_or] at hspecial
    simp only [mulOverflow_iff, absu_eq_natAbs, ← Int.natAbs_mul, hspecial, not_false_eq_true, and_true]
    omega

/-- Settles O36: MULO writes MUL's product, and V as its special case and the magnitude of the product say. -/
theorem muloFlagsLargeMagnitudes : Obligations.MuloFlagsLargeMagnitudes := by
  intro rd rs1 rs2 s
  rw [← mulChecked_fst]
  exact exec_setReg_setV rfl (mulChecked_snd_iff _ _)

/-! ## POW (R132) -/

/-- The loop multiplies `x^e` into its result: `x^e = (x·x)^(e/2) · x^(e mod 2)`, and each round drops a bit of `e`. -/
theorem powLoop_ofInt {rounds e : Nat} (x z : Int) (he : e < 2 ^ rounds) :
    powLoop rounds (BitVec.ofInt 256 x) e (BitVec.ofInt 256 z) = BitVec.ofInt 256 (z * x ^ e) := by
  induction rounds generalizing x z e with
  | zero =>
    obtain rfl : e = 0 := by omega
    rw [powLoop, pow_zero, mul_one]
  | succ rounds ih =>
    have hhalf : e / 2 < 2 ^ rounds := by omega
    rw [powLoop, mulWord_ofInt, mulWord_ofInt, ← apply_ite (BitVec.ofInt 256), ih _ _ hhalf]
    have hpow : x ^ e = (x * x) ^ (e / 2) * x ^ (e % 2) := by
      rw [← pow_two, ← pow_mul, ← pow_add, Nat.div_add_mod]
    split_ifs with hzero hodd
    · rw [hzero, pow_zero, mul_one]
    · rw [hpow, hodd]
      ring_nf
    · rw [hpow, Nat.mod_two_ne_one.1 hodd, pow_zero, mul_one]

/-- POW's word is the power of the signed base: 256 rounds take all bits of the exponent (R133 (d)). -/
theorem powWord_eq_ofInt (a n : Word) : powWord a n = BitVec.ofInt 256 (a.toInt ^ n.toNat) := by
  have hloop := powLoop_ofInt a.toInt 1 n.isLt
  rwa [BitVec.ofInt_toInt, one_mul] at hloop

/-- Settles O37: POW is one register write, of the pattern of the signed power. -/
theorem powIsSignedPower : Obligations.PowIsSignedPower := by
  intro rd rs1 rs2 s
  rw [← powWord_eq_ofInt]
  exact ⟨_, rfl, wroteOnly_setReg_complete s rd _⟩

end Sys2Proof.Machine
end

section
/-! Division (44_divide.md R140 to R143): the magnitudes divided with the signs reapplied are the truncating quotient and
remainder of the signed values, and UDIVREM is division of the patterns. -/

namespace Sys2Proof.Machine

/-- The operand condition of the three commands, as they test it (R140 to R142). -/
theorem uval_ne_zero {w : Word} (h : w ≠ 0) : uval w ≠ 0 := fun hz => h (BitVec.eq_of_toNat_eq hz)

/-! ## QUO and REM (R140, R141) -/

/-- A truncating quotient is the quotient of the magnitudes with the exclusive or of the signs (R143 (b)). -/
theorem tdiv_eq_ite_natAbs (x y : Int) :
    (if decide (x < 0) != decide (y < 0) then -((x.natAbs / y.natAbs : Nat) : Int) else (x.natAbs / y.natAbs : Nat)) =
      x.tdiv y := by
  cases x with
  | ofNat m =>
    cases y with
    | ofNat n => rfl
    | negSucc n => rw [decide_eq_true (Int.negSucc_lt_zero n)]; rfl
  | negSucc m =>
    rw [decide_eq_true (Int.negSucc_lt_zero m)]
    cases y with
    | ofNat n => rfl
    | negSucc n => rw [decide_eq_true (Int.negSucc_lt_zero n)]; rfl

/-- A truncating remainder is the remainder of the magnitudes with the sign of the dividend (R143 (b)). -/
theorem tmod_eq_ite_natAbs (x y : Int) :
    (if decide (x < 0) then -((x.natAbs % y.natAbs : Nat) : Int) else (x.natAbs % y.natAbs : Nat)) = x.tmod y := by
  cases x with
  | ofNat m => cases y <;> rfl
  | negSucc m =>
    rw [decide_eq_true (Int.negSucc_lt_zero m)]
    cases y <;> rfl

theorem quoWord_eq_ofInt (a b : Word) : quoWord a b = BitVec.ofInt 256 (a.toInt.tdiv b.toInt) := by
  rw [quoWord, isNeg_eq_decide, isNeg_eq_decide, absu_eq_natAbs, absu_eq_natAbs, bits256_eq_ofInt, withSign_ofInt,
    tdiv_eq_ite_natAbs]

theorem remWord_eq_ofInt (a b : Word) : remWord a b = BitVec.ofInt 256 (a.toInt.tmod b.toInt) := by
  rw [remWord, isNeg_eq_decide, absu_eq_natAbs, absu_eq_natAbs, bits256_eq_ofInt, withSign_ofInt, tmod_eq_ite_natAbs]

/-- Settles O38: past the test of the divisor each of the two is one register write, of the pattern of the truncating
result. -/
theorem quoRemTruncate : Obligations.QuoRemTruncate := by
  intro rd rs1 rs2 s hdivisor
  have hnz := uval_ne_zero hdivisor
  rw [← quoWord_eq_ofInt, ← remWord_eq_ofInt]
  exact ⟨⟨_, if_neg hnz, wroteOnly_setReg_complete s rd _⟩, ⟨_, if_neg hnz, wroteOnly_setReg_complete s rd _⟩⟩

/-! ## UDIVREM (R142) -/

/-- 256 bits hold every number up to a 256-bit value. -/
theorem toNat_bits256_of_le {n : Nat} {w : Word} (h : n ≤ w.toNat) : (bits256 n).toNat = n :=
  Nat.mod_eq_of_lt (h.trans_lt w.isLt)

/-- Settles O39: past the test of the divisor the quotient and then the remainder are written, and 256 bits hold both. -/
theorem udivremDividesUnsigned : Obligations.UdivremDividesUnsigned := by
  intro rd rd2 rs1 rs2 s hdivisor
  have hnz := uval_ne_zero hdivisor
  have hquo := toNat_bits256_of_le (Nat.div_le_self (s.reg rs1).toNat (s.reg rs2).toNat)
  have hrem := toNat_bits256_of_le (Nat.mod_le (s.reg rs1).toNat (s.reg rs2).toNat)
  refine ⟨_, if_neg hnz, by simp [Completed], by simp [SameFlags], fun r hrd hrd2 => ?_, ?_, ?_, fun hne => ?_⟩
  · rw [reg_complete, reg_setReg_ne _ _ hrd2, reg_setReg_ne _ _ hrd]
  · rw [reg_complete, reg_setReg_self, uval, uval, hrem]
    exact Nat.mod_lt _ (Nat.pos_of_ne_zero hnz)
  · rw [reg_complete, reg_setReg_self, uval, uval, hrem]
  · rw [reg_complete, reg_complete, reg_setReg_self, reg_setReg_ne _ _ hne, reg_setReg_self, uval, uval, hquo, hrem,
      Nat.div_add_mod']

/-! ## The division law (R143 (d)) -/

theorem addWord_ofInt (x y : Int) :
    addWord (BitVec.ofInt 256 x) (BitVec.ofInt 256 y) = BitVec.ofInt 256 (x + y) := by
  rw [BitVec.ofInt_add, BitVec.add_def]
  rfl

/-- Wrapping keeps the integers' `Q * y + R = x`, so the law also holds where the quotient wraps. -/
theorem addWord_mulWord_quoWord_remWord (x y : Word) : addWord (mulWord (quoWord x y) y) (remWord x y) = x := by
  have hmul : mulWord (quoWord x y) y = BitVec.ofInt 256 (x.toInt.tdiv y.toInt * y.toInt) := by
    rw [quoWord_eq_ofInt, ← mulWord_ofInt, BitVec.ofInt_toInt]
  rw [hmul, remWord_eq_ofInt, addWord_ofInt, Int.tdiv_mul_add_tmod, BitVec.ofInt_toInt]

/-- The library's signed remainder is the truncating one, and never wraps: 256 bits hold REM's result. -/
theorem toInt_remWord (x y : Word) : (remWord x y).toInt = x.toInt.tmod y.toInt := by
  rw [remWord_eq_ofInt, ← BitVec.toInt_srem, BitVec.ofInt_toInt]

theorem remWord_eq_zero_or_sign_eq (x y : Word) : remWord x y = 0 ∨ sign (remWord x y) = sign x := by
  by_cases hdvd : y.toInt ∣ x.toInt
  · left
    rw [remWord_eq_ofInt, Int.tmod_eq_zero_of_dvd hdvd]
    rfl
  · right
    rw [sign_eq_sign, sign_eq_sign, toInt_remWord, Int.sign_tmod, if_neg hdvd]

/-- Settles O40, for a zero divisor too: the law is that of the integers, modulo 2^256. -/
theorem truncatingDivisionLaw : Obligations.TruncatingDivisionLaw := fun x y _ =>
  ⟨addWord_mulWord_quoWord_remWord x y, remWord_eq_zero_or_sign_eq x y⟩

end Sys2Proof.Machine
end

section
/-! The barrel shifter (45_shift.md R150, R151): the branch for large amounts writes what the closed form does. -/

namespace Sys2Proof.Machine

/-- Settles O41: one register write, of the product's pattern for amounts past 255 too. -/
theorem shlMultipliesByPower : Obligations.ShlMultipliesByPower := exec_shl_wroteOnly

/-- A signed value lies within `±2^255`, so the floor of its quotient by 2^255 is -1 or 0 by its sign (R151). -/
theorem fdiv_two_pow_255_eq_ite (a : Word) : a.toInt.fdiv (2 ^ 255) = if a.toInt < 0 then -1 else 0 := by
  have hlo := a.le_toInt
  have hhi := a.toInt_lt
  rw [Int.fdiv_eq_ediv_of_nonneg _ (by decide)]
  split <;> omega

theorem shrWord_eq_ofInt (a : Word) (n : Nat) :
    shrWord a n = BitVec.ofInt 256 (a.toInt.fdiv (2 ^ min n 255)) := by
  rw [shrWord]
  split
  next hlarge =>
    rw [Nat.min_eq_right hlarge, fdiv_two_pow_255_eq_ite, apply_ite (BitVec.ofInt 256), ← allOnes_eq_ofInt]
    simp only [isNeg_iff]
    rfl
  next hsmall =>
    rw [Nat.min_eq_left (Nat.le_of_not_le hsmall)]
    rfl

/-- Settles O42: one register write, of the pattern of the floored quotient for amounts from 255 too. -/
theorem shrIsArithmetic : Obligations.ShrIsArithmetic := by
  intro rd rs1 rs2 s
  rw [← shrWord_eq_ofInt]
  exact ⟨_, rfl, wroteOnly_setReg_complete s rd _⟩

end Sys2Proof.Machine
end

section
/-! The square root (46_sqrt.md R160, R161): the bit-by-bit root and the Newton iteration are both the library's
`Nat.sqrt`. -/

namespace Sys2Proof.Machine

/-! ## The root settled bit by bit (R160) -/

/-- Each round halves the range in which the root is known to lie: a bit is kept exactly when the root reaches it. -/
theorem isqrtBits_eq_sqrt {v i root : Nat} (hlo : root ≤ v.sqrt) (hhi : v.sqrt < root + 2 ^ i) :
    isqrtBits v i root = v.sqrt := by
  induction i generalizing root with
  | zero => rw [isqrtBits]; omega
  | succ i ih =>
    rw [isqrtBits]
    split
    next hkeep => exact ih (Nat.le_sqrt.2 hkeep) (by omega)
    next hdrop => exact ih hlo (Nat.lt_of_not_le (hdrop ∘ Nat.le_sqrt.1))

theorem isqrt_eq_sqrt {v : Nat} (h : v < 2 ^ 256) : isqrt v = v.sqrt :=
  isqrtBits_eq_sqrt (Nat.zero_le _) (Nat.sqrt_lt.2 (by omega))

/-- Past the test of the sign SQRT is one register write. -/
theorem exec_sqrt_wroteOnly {rd rs1 : Reg} {s : State} (h : 0 ≤ (s.reg rs1).toInt) :
    ∃ t, exec (.sqrt rd rs1) s = .next t ∧ WroteOnly rd (bits256 (s.reg rs1).toNat.sqrt) s t := by
  have hpos : ¬isNeg (s.reg rs1) = true := by rw [isNeg_iff]; omega
  rw [← isqrt_eq_sqrt (s.reg rs1).isLt]
  exact ⟨_, if_neg hpos, wroteOnly_setReg_complete s rd _⟩

/-- Settles O43: the register holds `Nat.sqrt` of the argument, which its two bounds characterise. -/
theorem sqrtIsExact : Obligations.SqrtIsExact := by
  intro rd rs1 s h
  obtain ⟨t, hexec, hdone, hrd, hregs, hflags⟩ := exec_sqrt_wroteOnly (rd := rd) h
  have hroot : (t.reg rd).toNat = (s.reg rs1).toNat.sqrt := by rw [hrd, toNat_bits256_of_le (Nat.sqrt_le_self _)]
  exact ⟨t, hexec, hdone, hregs, hflags, Nat.eq_sqrt.1 hroot⟩

/-! ## The Newton iteration (R161) -/

/-- An iterate is never below the root, by the inequality of the arithmetic and the geometric mean. -/
theorem sqrt_le_newtonNext (v : Nat) {z : Nat} (hz : 0 < z) : v.sqrt ≤ (v / z + z) / 2 := by
  have hprod : (2 * v.sqrt - z) * z ≤ v.sqrt * v.sqrt := by
    rcases le_total (2 * v.sqrt) z with hle | hge
    · simp [Nat.sub_eq_zero_of_le hle]
    · have hmean := four_mul_le_sq_add (2 * v.sqrt - z) z
      rw [Nat.sub_add_cancel hge] at hmean
      linarith
  have hquo : 2 * v.sqrt - z ≤ v / z := (Nat.le_div_iff_mul_le hz).2 (hprod.trans v.sqrt_le)
  omega

/-- Where the iterates stop decreasing, the iterate is not above the root. -/
theorem le_sqrt_of_le_newtonNext {v z : Nat} (h : z ≤ (v / z + z) / 2) : z ≤ v.sqrt :=
  Nat.le_sqrt.2 (Nat.mul_le_of_le_div _ _ _ (by omega))

/-- From above the root the iterates decrease to it, each by at least 1. -/
theorem newtonLoop_eq_sqrt {v rounds z : Nat} (hv : 0 < v) (hlo : v.sqrt ≤ z) (hz : z ≤ rounds) :
    newtonLoop v rounds z = v.sqrt := by
  induction rounds generalizing z with
  | zero => rw [newtonLoop]; omega
  | succ rounds ih =>
    rw [newtonLoop]
    split
    next hstop => exact Nat.le_antisymm (le_sqrt_of_le_newtonNext hstop) hlo
    next hstep => exact ih (sqrt_le_newtonNext v ((Nat.sqrt_pos.2 hv).trans_le hlo)) (by omega)

theorem lt_two_pow_bitLength (v : Nat) : v < 2 ^ bitLength v := by
  rw [bitLength]
  split
  next hzero => simp [hzero]
  next => exact Nat.lt_log2_self

/-- The initial guess is above the root. -/
theorem sqrt_lt_newtonStart (v : Nat) : v.sqrt < newtonStart v := by
  rw [Nat.sqrt_lt, newtonStart, ← Nat.pow_add]
  exact (lt_two_pow_bitLength v).trans_le (Nat.pow_le_pow_right (by decide) (by omega))

theorem newtonSqrt_eq_sqrt (v : Nat) : newtonSqrt v = v.sqrt := by
  rw [newtonSqrt]
  split
  next hzero => rw [hzero, Nat.sqrt_zero]
  next hne => exact newtonLoop_eq_sqrt (Nat.pos_of_ne_zero hne) (sqrt_lt_newtonStart v).le le_rfl

/-- Settles O47: both are `Nat.sqrt`, the iteration for every argument and the bit-by-bit root below 2^256. -/
theorem newtonIterationIsExact : Obligations.NewtonIterationIsExact := by
  intro v hv
  rw [newtonSqrt_eq_sqrt, isqrt_eq_sqrt (by omega)]

end Sys2Proof.Machine
end

section
/-! Executing an accepted packet (60_exceptions.md R200 to R207, R221, R222): it ends in one core step, a command faults
exactly under its operand condition, and the outcome depends on the packet, the registers and C alone. -/

namespace Sys2Proof.Machine

/-! ## The core's step (R204, R221, R222) -/

theorem executePacket_of_command {p : Packet} {i : Instr} (h : decode p = .command i) (s : State) :
    executePacket p s = exec i s := by
  rw [executePacket, h]

theorem executePacket_of_illegal {p : Packet} {why : Illegal} (h : decode p = .illegal why) (s : State) :
    executePacket p s = .next (s.takeFault .illegalCommand p.hdr) := by
  rw [executePacket, h]

/-- Settles O7: the core's step is `executePacket`, and that is `exec` of the decoded command. -/
theorem stepExecutesAcceptedCommand : Obligations.StepExecutesAcceptedCommand := fun s _ _ hturn hdecode =>
  (step_of_coreTurn hturn).trans (executePacket_of_command hdecode s.nextTurn)

/-- Every packet, legal or not, ends with BUSY = 0 and the `done` event, the host's side untouched. -/
theorem executePacket_finishes (p : Packet) (s : State) :
    ∃ t, executePacket p s = .next t ∧ t.busy = false ∧ t.reply = some .done ∧ t.offered = s.offered ∧
      t.script = s.script := by
  rcases decode_total p with ⟨i, hdecode⟩ | ⟨why, hdecode⟩
  · rw [executePacket_of_command hdecode]
    rcases exec_cases i s with ⟨-, hfault⟩ | ⟨-, _, _, _, hdone⟩
    · exact ⟨_, hfault, rfl, rfl, rfl, rfl⟩
    · exact ⟨_, hdone, rfl, rfl, rfl, rfl⟩
  · exact ⟨_, executePacket_of_illegal hdecode s, rfl, rfl, rfl, rfl⟩

/-- Settles O8: the core's step executes the packet, which finishes. -/
theorem acceptedPacketFinishes : Obligations.AcceptedPacketFinishes := by
  intro s p hturn
  rw [step_of_coreTurn hturn]
  exact executePacket_finishes p s.nextTurn

/-! ## Which command faults (R200, R201) -/

/-- A command whose operand condition does not hold completes. -/
theorem exec_completed {i : Instr} {s : State} (h : faultCondition i s = .none) :
    ∃ t, exec i s = .next t ∧ Completed s t := by
  rcases exec_cases i s with ⟨hfault, -⟩ | ⟨-, _, _, _, hdone⟩
  · exact absurd h hfault
  · exact ⟨_, hdone, rfl, rfl, rfl, rfl, rfl, rfl, rfl⟩

/-- Settles O17: the two branches of `exec_cases`. -/
theorem commandsFaultExactlyWhenSpecified : Obligations.CommandsFaultExactlyWhenSpecified :=
  fun _ _ => ⟨exec_faultedPrecisely rfl, exec_completed⟩

/-! ## Two runs from the same registers and C (R221) -/

/-- Two states agree on everything R221 calls the outcome, except that each may still hold its run's own old V. -/
structure SameOutcome (v₁ v₂ : Bool) (t₁ t₂ : State) : Prop where
  regs : t₁.regs = t₂.regs
  c : t₁.c = t₂.c
  fault : t₁.fault = t₂.fault
  fcmd : t₁.fault ≠ .none → t₁.fcmd = t₂.fcmd
  v : t₁.v = t₂.v ∨ (t₁.v = v₁ ∧ t₂.v = v₂)

theorem SameOutcome.setReg {v₁ v₂ : Bool} {t₁ t₂ : State} (h : SameOutcome v₁ v₂ t₁ t₂) (r : Reg) (w : Word) :
    SameOutcome v₁ v₂ (t₁.setReg r w) (t₂.setReg r w) :=
  ⟨by simp only [setReg_regs, h.regs], h.c, h.fault, h.fcmd, h.v⟩

theorem SameOutcome.setC {v₁ v₂ : Bool} {t₁ t₂ : State} (h : SameOutcome v₁ v₂ t₁ t₂) (b : Bool) :
    SameOutcome v₁ v₂ (t₁.setC b) (t₂.setC b) :=
  ⟨h.regs, rfl, h.fault, h.fcmd, h.v⟩

theorem SameOutcome.setV {v₁ v₂ : Bool} {t₁ t₂ : State} (h : SameOutcome v₁ v₂ t₁ t₂) (b : Bool) :
    SameOutcome v₁ v₂ (t₁.setV b) (t₂.setV b) :=
  ⟨h.regs, h.c, h.fault, h.fcmd, .inl rfl⟩

theorem SameOutcome.complete {v₁ v₂ : Bool} {t₁ t₂ : State} (h : SameOutcome v₁ v₂ t₁ t₂) :
    SameOutcome v₁ v₂ t₁.complete t₂.complete :=
  ⟨h.regs, h.c, h.fault, h.fcmd, h.v⟩

theorem SameOutcome.takeFault {v₁ v₂ : Bool} {t₁ t₂ : State} (h : SameOutcome v₁ v₂ t₁ t₂) (code : FaultCode)
    (hdr : Header) : SameOutcome v₁ v₂ (t₁.takeFault code hdr) (t₂.takeFault code hdr) :=
  ⟨h.regs, h.c, rfl, fun _ => rfl, h.v⟩

/-- Registers and C are all a command reads, so from states that share them it writes the same values and takes the same
fault. -/
theorem exec_sameOutcome (i : Instr) {s₁ s₂ : State} (start : SameOutcome s₁.v s₂.v s₁ s₂) :
    ∃ t₁ t₂, exec i s₁ = .next t₁ ∧ exec i s₂ = .next t₂ ∧ SameOutcome s₁.v s₂.v t₁ t₂ := by
  obtain ⟨regs, c, v₁, _⟩ := s₁
  obtain ⟨regs', c', v₂, _⟩ := s₂
  obtain rfl : regs = regs' := start.regs
  obtain rfl : c = c' := start.c
  cases i with
  | nop => exact ⟨_, _, rfl, rfl, start.complete⟩
  | wrflags imm => exact ⟨_, _, rfl, rfl, ((start.setC _).setV _).complete⟩
  | adc64 rd rs1 rs2 | sbb64 rd rs1 rs2 => exact ⟨_, _, rfl, rfl, ((start.setReg _ _).setC _).complete⟩
  | addo rd rs1 rs2 | subo rd rs1 rs2 | mulo rd rs1 rs2 =>
    exact ⟨_, _, rfl, rfl, ((start.setReg _ _).setV _).complete⟩
  | quo rd rs1 rs2 | rem rd rs1 rs2 =>
    by_cases hzero : uval regs[rs2] = 0
    · exact ⟨_, _, if_pos hzero, if_pos hzero, start.takeFault _ _⟩
    · exact ⟨_, _, if_neg hzero, if_neg hzero, (start.setReg _ _).complete⟩
  | udivrem rd rd2 rs1 rs2 =>
    by_cases hzero : uval regs[rs2] = 0
    · exact ⟨_, _, if_pos hzero, if_pos hzero, start.takeFault _ _⟩
    · exact ⟨_, _, if_neg hzero, if_neg hzero, ((start.setReg _ _).setReg _ _).complete⟩
  | sqrt rd rs1 =>
    by_cases hneg : isNeg regs[rs1] = true
    · exact ⟨_, _, if_pos hneg, if_pos hneg, start.takeFault _ _⟩
    · exact ⟨_, _, if_neg hneg, if_neg hneg, (start.setReg _ _).complete⟩
  | _ => exact ⟨_, _, rfl, rfl, (start.setReg _ _).complete⟩

theorem executePacket_sameOutcome (p : Packet) {s₁ s₂ : State} (start : SameOutcome s₁.v s₂.v s₁ s₂) :
    ∃ t₁ t₂, executePacket p s₁ = .next t₁ ∧ executePacket p s₂ = .next t₂ ∧ SameOutcome s₁.v s₂.v t₁ t₂ := by
  rcases decode_total p with ⟨i, hdecode⟩ | ⟨why, hdecode⟩
  · simp only [executePacket_of_command hdecode]
    exact exec_sameOutcome i start
  · exact ⟨_, _, executePacket_of_illegal hdecode s₁, executePacket_of_illegal hdecode s₂, start.takeFault _ _⟩

/-- Settles O25: with FAULT = 0 in both, states that share registers and C start with the same outcome. -/
theorem outcomeDependsOnRegistersAndC : Obligations.OutcomeDependsOnRegistersAndC := by
  intro p s₁ s₂ t₁ t₂ hregs hc hfault₁ hfault₂ hexec₁ hexec₂
  have start : SameOutcome s₁.v s₂.v s₁ s₂ :=
    ⟨hregs, hc, hfault₁.trans hfault₂.symm, absurd hfault₁, .inr ⟨rfl, rfl⟩⟩
  obtain ⟨u₁, u₂, hu₁, hu₂, same⟩ := executePacket_sameOutcome p start
  obtain rfl : u₁ = t₁ := Host.Outcome.next.inj (hu₁.symm.trans hexec₁)
  obtain rfl : u₂ = t₂ := Host.Outcome.next.inj (hu₂.symm.trans hexec₂)
  exact ⟨same.regs, same.c, same.fault, same.fcmd, same.v⟩

end Sys2Proof.Machine
end

section
/-! Steps, the command port, the halted state and reset (60_exceptions.md R205, R220, R224; 70_reset_and_hazards.md
R230): where a step stops, what an offered packet does, and what each interaction gets while the core is halted. -/

namespace Sys2Proof.Machine

/-! ## Where a step stops (R205, R224) -/

/-- A move always answers a next state. -/
theorem perform_next (m : Move) (s : State) : ∃ t, perform m s = .next t := by
  cases m with
  | execute p =>
    obtain ⟨t, hexec, -⟩ := executePacket_finishes p s
    exact ⟨t, hexec⟩
  | accept p => exact ⟨_, rfl⟩
  | host a rest => exact ⟨_, rfl⟩

/-- A step answers a next state, or nobody can move and it stops with `stuckReason`. -/
theorem step_next_or_stuck (s : State) :
    (nextMove s ≠ none ∧ ∃ t, step s = .next t) ∨ (nextMove s = none ∧ step s = .fault (stuckReason s)) := by
  cases hmove : nextMove s with
  | none => exact .inr ⟨rfl, by simp only [step, hmove]⟩
  | some m =>
    obtain ⟨t, hperform⟩ := perform_next m s.nextTurn
    exact .inl ⟨Option.some_ne_none m, t, by simp only [step, hmove, hperform]⟩

theorem step_ne_refused (s : State) (r : Refusal) : step s ≠ .refused r := by
  rcases step_next_or_stuck s with ⟨-, t, hstep⟩ | ⟨-, hstep⟩ <;> simp [hstep]

theorem step_eq_fault_iff (s : State) (f : Fault) :
    step s = .fault f ↔ coreMove s = none ∧ hostMove s = none ∧ stuckReason s = f := by
  rw [← and_assoc, ← nextMove_eq_none_iff]
  rcases step_next_or_stuck s with ⟨hmove, t, hstep⟩ | ⟨hmove, hstep⟩ <;> simp [hmove, hstep]

theorem stuckReason_eq_halted_iff (s : State) : stuckReason s = .halted ↔ s.fault ≠ .none := by
  simp [stuckReason, ← halted_eq_true_iff]

theorem stuckReason_eq_idle_iff (s : State) : stuckReason s = .idle ↔ s.fault = .none := by
  simp [stuckReason, ← halted_eq_false_iff]

/-- Settles O9: the one way a step stops, with the two names told apart by FAULT. -/
theorem stepStopsOnlyWhenNobodyCanMove : Obligations.StepStopsOnlyWhenNobodyCanMove := by
  intro s
  rw [step_eq_fault_iff, step_eq_fault_iff, stuckReason_eq_halted_iff, stuckReason_eq_idle_iff]
  exact ⟨step_ne_refused s, Iff.rfl, Iff.rfl⟩

/-! ## The command port (R220) -/

theorem hostOffer_of_free {s : State} (p : Packet) (hbusy : s.busy = false) (hhalted : s.halted = false) :
    s.hostOffer p = s.accept p := by
  simp [State.hostOffer, hbusy, hhalted]

theorem hostOffer_of_blocked {s : State} (p : Packet) (h : s.busy = true ∨ s.halted = true) :
    s.hostOffer p = s.holdOffer p := by
  simp [State.hostOffer, h]

/-- The host's turn with a packet offered at a free port. -/
theorem step_offer_of_free {s : State} {p : Packet} {rest : List HostAction} (hturn : HostTurn s (.offer p) rest)
    (hbusy : s.busy = false) (hhalted : s.halted = false) :
    step s = .next ((s.nextTurn.setScript rest).accept p) := by
  rw [step_of_hostTurn hturn, State.hostAct, hostOffer_of_free (s := s.nextTurn.setScript rest) p hbusy hhalted]

/-- The host's turn with a packet offered at a port that is busy or halted. -/
theorem step_offer_of_blocked {s : State} {p : Packet} {rest : List HostAction} (hturn : HostTurn s (.offer p) rest)
    (h : s.busy = true ∨ s.halted = true) : step s = .next ((s.nextTurn.setScript rest).holdOffer p) := by
  rw [step_of_hostTurn hturn, State.hostAct, hostOffer_of_blocked (s := s.nextTurn.setScript rest) p h]

/-- A command in progress stays or ends; no step puts another packet in its place. -/
theorem inFlight_of_step {s t : State} {p : Packet} (hp : s.inFlight = some p) (h : step s = .next t) :
    t.inFlight = some p ∨ t.inFlight = none := by
  rcases step_block_cases h with ⟨q, -, hexec⟩ | ⟨keep, rest, -, rfl⟩ | ⟨hkept, -⟩
  · exact .inr (by simpa [busy_eq] using busy_of_executePacket hexec)
  · exact .inr (hostReset_inFlight _ keep)
  · rcases hkept.inFlight with hsame | ⟨hfree, -⟩
    · exact .inl (hsame.trans hp)
    · simp [hp] at hfree

/-- Settles O10: the offer at a free and at a blocked port, the turn of a waiting packet, and the packet in progress. -/
theorem portTakesOnePacketAtATime : Obligations.PortTakesOnePacketAtATime := by
  refine ⟨fun s p rest hturn hbusy hhalted => ?_, fun s p rest hturn hblocked => ?_, fun s p hturn => ?_,
    fun s t p => inFlight_of_step⟩
  · exact ⟨_, step_offer_of_free hturn hbusy hhalted, rfl, rfl, rfl⟩
  · exact ⟨_, step_offer_of_blocked hturn hblocked, rfl, rfl, rfl⟩
  · exact ⟨_, step_of_acceptTurn hturn, rfl, rfl, rfl⟩

/-! ## The halted core (R205) -/

theorem coreMove_of_halted {s : State} (h : s.halted = true) : coreMove s = none := by
  rw [coreMove, if_pos h]

theorem hostMove_of_script_nil {s : State} (h : s.script = []) : hostMove s = none := by
  rw [hostMove, h]

/-- Settles O11: the core has no move, an offer is blocked, and window accesses and control reads ask only for BUSY. -/
theorem haltedCoreTakesNoStep : Obligations.HaltedCoreTakesNoStep := by
  intro s hhalted
  refine ⟨coreMove_of_halted hhalted, fun hscript => ?_, fun p rest hturn => ?_,
    fun a n rest hturn hbusy hn ha halign => ?_, fun a data rest hturn hbusy hn ha halign => ?_,
    fun rest hturn => ?_, fun rest hturn => ?_⟩
  · exact (step_eq_fault_iff s .halted).2 ⟨coreMove_of_halted hhalted, hostMove_of_script_nil hscript,
      (stuckReason_eq_halted_iff s).2 ((halted_eq_true_iff s).1 hhalted)⟩
  · exact ⟨_, step_offer_of_blocked hturn (.inr hhalted), rfl, rfl, rfl, rfl⟩
  · exact ⟨_, step_windowRead_of_ok hturn ((windowResponse_ok_iff _ _ _).2 ⟨hn, ha, halign, hbusy⟩), rfl⟩
  · exact ⟨_, step_windowWrite_of_ok hturn ((windowResponse_ok_iff _ _ _).2 ⟨hn, ha, halign, hbusy⟩), rfl,
      setWindowBytes_congr (s := s.nextTurn.setScript rest) (t := s) rfl a data⟩
  · exact ⟨_, step_of_hostTurn hturn, rfl⟩
  · exact ⟨_, step_of_hostTurn hturn, rfl⟩

/-! ## Reset (R230) -/

/-- Settles O14: `State.hostReset` takes every piece of the block's state from `State.reset`, whatever it was before. -/
theorem resetAtAnyTime : Obligations.ResetAtAnyTime := fun _ _ _ hturn =>
  ⟨_, step_of_hostTurn hturn, rfl, rfl, rfl, rfl⟩

end Sys2Proof.Machine
end
